-- ==== Sys2Proof/Word.lean ====
section
/-! DEFINITION. The machine's unsigned value types (spec 00_scope.md R9, R12; 20_memory.md R58). -/

namespace Sys2Proof

/-- `Word`: unsigned 32-bit values (R12). Every register value, instruction word, segment word, segment identifier,
offset and size is one. `+` and `*` on it are modulo 2^32, `/` is the unsigned quotient, `&&&` and `~~~` are bitwise. -/
abbrev Word := BitVec 32

/-- One byte of the image or of the host's streams (R56, R58). -/
abbrev Byte := BitVec 8

/-- `0xFFFFFFFF`, the all-ones word (R12). -/
abbrev Word.allOnes : Word := 0xFFFFFFFF#32

/-- A register number, 0 to 7 (R20). -/
abbrev Reg := Fin 8

end Sys2Proof
end

