-- ==== Sys2Proof/Config.lean ====
section
/-! DEFINITION. The parameters of 00_scope.md R10 that are fixed for one machine, and the free values (R50, R51). -/

namespace Sys2Proof.Config

/-- `REG_RESET` (R10, R36): all zero. PRESUMED: spec decision D2, from general knowledge (log 2). -/
def regReset : Reg → Word := fun _ => 0#32

/-- `PC_RESET` (R10, R36): 0. PRESUMED: spec decision D3, from general knowledge (log 3). -/
def pcReset : Word := 0#32

/-- `FAULT_EXIT_STATUS` (R10, R65), OPEN by D19: the host's exit code after a fatal fault. No value is known (log 20). -/
opaque faultExitStatus : Nat

/-- Free value: the identifier the memory manager draws at its `n`-th allocation (R50, R150, D14). Any word can be it, so
nothing is provable about it; an allocation uses it when it names a free identifier (log 13). -/
opaque freeIdentifier : Nat → Word

/-- Free value: whether the memory manager refuses its `n`-th allocation when `ALLOC_CAN_FAIL` holds (R51, D15; log 15). -/
opaque freeAllocRefusal : Nat → Bool

/-- Free value: the host's `n`-th drawn answer to `IoIn()`, a byte or (`none`) `EOS` (R62, D21; log 18). -/
opaque freeInputAnswer : Nat → Option Byte

end Sys2Proof.Config
end

