-- ==== Sys2Proof/Machine/State.lean ====
section
/-! DEFINITION. The state of UM-Core and of the environment behind its ports, as plain data, and its value after reset
(10_state.md R20 to R36, 20_memory.md R47, R62, R63). -/

namespace Sys2Proof.Machine

/-- The run state (R29). `halted` and `faulted` are terminal (R104). -/
inductive RunState where
  | running
  | halted
  | faulted
  deriving DecidableEq, Repr

/-- The fault causes of R172, in the order of their codes. -/
inductive FaultCause where
  /-- 0 `NONE`: no fault has occurred. -/
  | none
  /-- 1 `ILLEGAL_OPCODE`: the decode of any word with opcode 14 or 15. -/
  | illegalOpcode
  /-- 2 `FETCH_OUT_OF_BOUNDS`: any step whose `pc` is at or beyond the length of segment zero. -/
  | fetchOutOfBounds
  /-- 3 `SEGMENT_OFFSET_OUT_OF_BOUNDS`: SEGREAD, SEGWRITE. -/
  | segmentOffsetOutOfBounds
  /-- 4 `SEGMENT_NOT_MAPPED`: SEGREAD, SEGWRITE, LOADPROG with a non-zero identifier. -/
  | segmentNotMapped
  /-- 5 `RESERVED_SEGMENT_ZERO`: raised by no instruction (R54, 90_conflicts.md C2). -/
  | reservedSegmentZero
  /-- 6 `DIVIDE_BY_ZERO`: DIV. -/
  | divideByZero
  /-- 7 `OUTPUT_OUT_OF_RANGE`: OUT. -/
  | outputOutOfRange
  /-- 8 `BAD_DEALLOCATE`: SEGFREE. -/
  | badDeallocate
  /-- 9 `ALLOC_EXHAUSTED`: SEGALLOC, only if `ALLOC_CAN_FAIL`. -/
  | allocExhausted
  deriving DecidableEq, Repr

/-- `fault_info`: the operand values that R172 names for each cause. -/
inductive FaultInfo where
  | none
  /-- The opcode of an illegal word. -/
  | opcode (op : BitVec 4)
  /-- The offset `pc0` of a fetch fault. -/
  | offset (off : Word)
  /-- `(id, off)` of a data access out of bounds. -/
  | identOffset (id off : Word)
  /-- The identifier of an unmapped segment or of a bad deallocation. -/
  | ident (id : Word)
  /-- The dividend of a division by zero. -/
  | dividend (v : Word)
  /-- The value OUT could not send. -/
  | value (v : Word)
  /-- The size of a refused allocation. -/
  | size (n : Word)
  deriving DecidableEq, Repr

/-- A cause with its information: what `raise Fault(cause, info)` names (R15), and a port's fault answer (R41). -/
structure FaultEvent where
  cause : FaultCause
  info : FaultInfo
  deriving DecidableEq, Repr

/-- The fault record (R30). -/
structure FaultRecord where
  /-- A code of R172; `none` while no fault has occurred. -/
  cause : FaultCause
  /-- The offset the faulting instruction was, or was to be, fetched from. -/
  faultPc : Word
  /-- The instruction word, or `none` for a fetch fault. -/
  faultWord : Option Word
  /-- The operand values of the cause's row. -/
  faultInfo : FaultInfo
  deriving DecidableEq, Repr

/-- One segment: an array of `len` words (R42). `cells` lists the words that are not 0, by offset; an offset below `len`
that is not listed reads 0, as a new segment's words do (R50; log 11). -/
structure Segment where
  len : Nat
  cells : List (Nat × Word)
  deriving DecidableEq, Repr

/-- The memory manager's state (R35, R47). `table` maps live identifiers to their segments; it and `freeIds`, the Free-ID
Pool, are in rising order of identifier (log 11, 12). -/
structure Memory where
  seg0 : Segment
  table : List (Nat × Segment)
  freeIds : List Nat
  deriving DecidableEq, Repr

/-- An answer of the host to `IoIn()` (R41, R62): a byte or `EOS`. -/
inductive InputAnswer where
  | byte (b : Byte)
  | eos
  deriving DecidableEq, Repr

/-- What the host does when the listed answers are used up: the model's choice of three forms, since the spec leaves each
answer to the host (R62, D21). DESIGN CHOICE (log 18). -/
inductive InputAfter where
  /-- The closed stream of R62: every further `IoIn()` answers `EOS`. -/
  | endOfStream
  /-- The host never answers again, and IN waits for ever (R165). -/
  | noAnswer
  /-- The host answers for ever, each answer a draw from it (R62, D21); `next` counts the draws made, and indexes
  `Config.freeInputAnswer`. -/
  | drawn (next : Nat)
  deriving DecidableEq, Repr

/-- The whole machine: the core's own state (R20 to R30) and the environment's (R35). -/
structure State where
  /-- `x[0]` to `x[7]` (R20). -/
  regs : Vector Word 8
  /-- The word offset into segment zero (R25). -/
  pc : Word
  /-- The run state (R29). -/
  run : RunState
  /-- The fault record (R30). -/
  fault : FaultRecord
  /-- Segment zero, the Segment Table and the Free-ID Pool (R35, R47). -/
  mem : Memory
  /-- The host's answers to the next `IoIn()` requests, the next one first (R62; log 18). -/
  input : List InputAnswer
  /-- What the host does after the listed answers (R62, R165; log 18). -/
  inputAfter : InputAfter
  /-- The bytes sent so far, the first one first (R63). -/
  output : List Byte
  /-- How many more output bytes the host takes; `none`: it takes every byte at once (R163; log 19). -/
  outputRoom : Option Nat
  /-- `ALLOC_CAN_FAIL` (R10, R51), OPEN by D15 (log 15). -/
  allocCanFail : Bool
  /-- The model's own: how many identifiers have been drawn; it indexes the free values of `Config` (R50; log 13). -/
  draws : Nat
  deriving DecidableEq, Repr

/-- Why the machine has no next step. Each is the spec's own "there is no step" or "stuck"; all are SAFE, since a run
that stops here proves nothing about a further state. A fatal fault of R172 is none of these: its entry is a next state. -/
inductive Fault where
  /-- The run state is `HALTED`: "there is no step" (R104). Raised by `step` only. Safe. -/
  | halted
  /-- The run state is `FAULTED`: "there is no step" (R104). Raised by `step` only. Safe. -/
  | faulted
  /-- IN waits for a host that never answers: the step is held (R165, I6). Raised by IN. Safe. -/
  | inputHeld
  /-- OUT waits for a host that never takes the byte: the step is held (R163, I6). Raised by OUT. Safe. -/
  | outputHeld
  /-- Every non-zero identifier is live and `ALLOC_CAN_FAIL` is false: the step is stuck (R51, I7). Raised by SEGALLOC. Safe. -/
  | allocStuck
  deriving DecidableEq, Repr

/-- Why the model has no meaning for an instruction. -/
inductive Refusal where
  /-- Raised by an arm of `exec` whose instruction has no meaning yet; no arm of this model does. Safe. -/
  | notModelled (mnemonic : String)
  deriving DecidableEq, Repr

/-- A segment of no words. -/
def Segment.empty : Segment := { len := 0, cells := [] }

/-- No program installed and no identifier live (R36; log 21). -/
def Memory.reset : Memory := { seg0 := Segment.empty, table := [], freeIds := [] }

/-- `cause = NONE`; the other fields are "unspecified and unread" (R36): DESIGN CHOICE (log 7). -/
def FaultRecord.reset : FaultRecord := { cause := .none, faultPc := 0#32, faultWord := none, faultInfo := .none }

/-- The machine right after reset (R36, R200), with no image installed (log 21). -/
def State.reset : State where
  regs := Vector.ofFn Config.regReset
  pc := Config.pcReset
  run := .running
  fault := FaultRecord.reset
  mem := Memory.reset
  input := []
  inputAfter := .endOfStream
  output := []
  outputRoom := none
  allocCanFail := false
  draws := 0

end Sys2Proof.Machine
end

