-- ==== Sys2Proof/Machine/Flags.lean ====
section
/-! DEFINITION. UM-Core has no flags, condition codes or predicate registers (R31): this file holds the comparators that
stand beside its ALU instead, each "a plain unsigned test of a 32-bit value with no flag output" (R132). The fourth,
`op > 13`, is the decoder's (`Fields.legal`). -/

namespace Sys2Proof.Machine

/-- `x[C] != 0`: the write enable of CMOV (R121, R132). -/
def isNonZero (v : Word) : Bool := decide (v.toNat ≠ 0)

/-- `x[C] == 0`: the zero-divisor test of DIV (R127, R132). -/
def isZero (v : Word) : Bool := decide (v.toNat = 0)

/-- `x[C] > 255`: the range test of OUT (R161, R132). -/
def exceedsByte (v : Word) : Bool := decide (v.toNat > 255)

end Sys2Proof.Machine
end

