-- ==== Sys2Proof/Syntax.lean ====
section
/-! DEFINITION. The fourteen instructions (30_encoding.md R86), one constructor per row of opcode_table.json. -/

namespace Sys2Proof

/-- An instruction. Register operands stand under the field names of R82 and R83 and in their order; a constructor holds
the fields its row of R87 uses and no ignored bit (R89). The roles of A, B and C are R87's (log 1). -/
inductive Instr where
  /-- CMOV rA, rB, rC (R121): A destination, B source, C condition. -/
  | cmov (a b c : Reg)
  /-- SEGREAD rA, rB, rC (R141): A destination, B segment identifier, C offset. -/
  | segread (a b c : Reg)
  /-- SEGWRITE rA, rB, rC (R145): A segment identifier, B offset, C value. -/
  | segwrite (a b c : Reg)
  /-- ADD rA, rB, rC (R123): A destination, B and C addends. -/
  | add (a b c : Reg)
  /-- MUL rA, rB, rC (R125): A destination, B multiplicand, C multiplier. -/
  | mul (a b c : Reg)
  /-- DIV rA, rB, rC (R127): A destination, B dividend, C divisor. -/
  | div (a b c : Reg)
  /-- NAND rA, rB, rC (R129): A destination, B and C operands. -/
  | nand (a b c : Reg)
  /-- HALT (R105). -/
  | halt
  /-- SEGALLOC rB, rC (R149): B destination (new identifier), C size in words. -/
  | segalloc (b c : Reg)
  /-- SEGFREE rC (R152): C segment identifier. -/
  | segfree (c : Reg)
  /-- OUT rC (R161): C value to output. -/
  | out (c : Reg)
  /-- IN rC (R164): C destination. -/
  | inp (c : Reg)
  /-- LOADPROG rB, rC (R108): B segment identifier, C new pc. -/
  | loadprog (b c : Reg)
  /-- LOADIMM rLA, #imm (R131): LA destination, imm the immediate, already widened to a word (R84). -/
  | loadimm (la : Reg) (imm : Word)
  deriving DecidableEq, Repr

end Sys2Proof
end

