-- ==== Sys2Proof/WellFormed.lean ====
section
/-! DEFINITION. Which terms of `Instr` have an encoding (30_encoding.md R84, R92). -/

namespace Sys2Proof

/-- `IMM_BITS` is 25 and the immediate is unsigned: 0 to `0x01FFFFFF` (R84). -/
abbrev immediateFits (imm : Word) : Prop := imm.toNat ≤ 0x01FFFFFF

/-- A term is well formed when an assembler has an encoding for it: only LOADIMM has an operand wider than its field, and
"An assembler refuses an immediate above `0x01FFFFFF`" (R92). Register operands are 0 to 7 by their type. -/
def Instr.wf : Instr → Bool
  | .loadimm _ imm => decide (immediateFits imm)
  | .cmov _ _ _ | .segread _ _ _ | .segwrite _ _ _ | .add _ _ _ | .mul _ _ _ | .div _ _ _ | .nand _ _ _ => true
  | .halt => true
  | .segalloc _ _ | .segfree _ | .out _ | .inp _ | .loadprog _ _ => true

/-- `wf` as a proposition. -/
abbrev Instr.WellFormed (i : Instr) : Prop := i.wf = true

end Sys2Proof
end

