-- ==== Sys2Proof/Decode.lean ====
section
/-! DEFINITION. The decoder (30_encoding.md R80 to R90), total on any word and any bytes, and the encoder (R91). -/

namespace Sys2Proof

/-- `w[lo + n - 1 : lo]`: the `n`-bit field of `w` whose lowest bit is `lo` (R11). -/
def slice (w : Word) (lo n : Nat) : BitVec n := w.extractLsb' lo n

/-- A 3-bit register field of `w` as a register number (R82, R83). -/
def regField (w : Word) (lo : Nat) : Reg := ⟨(slice w lo 3).toNat, (slice w lo 3).isLt⟩

/-- `zext_32(w[24:0])`, the only immediate (R84). -/
def immField (w : Word) : Word := (slice w 0 25).setWidth 32

/-- Why a word is rejected. -/
inductive DecodeError where
  /-- The opcode is 14 or 15 (R88). -/
  | illegalOpcode (op : BitVec 4)
  deriving DecidableEq, Repr

/-- Why bytes are rejected. -/
inductive BytesError where
  /-- Fewer than four bytes are left: no whole instruction word (R80). -/
  | truncated
  /-- The word that the first four bytes make is rejected. -/
  | rejected (e : DecodeError)
  deriving DecidableEq, Repr

/-- The six raw slices of R85; all are always extracted. -/
structure Fields where
  op : BitVec 4
  a : Reg
  b : Reg
  c : Reg
  la : Reg
  imm : Word
  deriving DecidableEq, Repr

/-- R85's field extraction. -/
def fields (w : Word) : Fields where
  op := slice w 28 4
  a := regField w 6
  b := regField w 3
  c := regField w 0
  la := regField w 25
  imm := immField w

/-- R85's `legal`: the opcode range test, one of the four comparisons of R132. -/
def Fields.legal (f : Fields) : Bool := decide (f.op.toNat ≤ 13)

/-- The instruction that an opcode and the raw slices select (R86, R87): each row uses only the fields its form defines (R89). -/
def Fields.selectAt (f : Fields) (op : Nat) : Except DecodeError Instr :=
  match op with
  | 0 => .ok (.cmov f.a f.b f.c)
  | 1 => .ok (.segread f.a f.b f.c)
  | 2 => .ok (.segwrite f.a f.b f.c)
  | 3 => .ok (.add f.a f.b f.c)
  | 4 => .ok (.mul f.a f.b f.c)
  | 5 => .ok (.div f.a f.b f.c)
  | 6 => .ok (.nand f.a f.b f.c)
  | 7 => .ok .halt
  | 8 => .ok (.segalloc f.b f.c)
  | 9 => .ok (.segfree f.c)
  | 10 => .ok (.out f.c)
  | 11 => .ok (.inp f.c)
  | 12 => .ok (.loadprog f.b f.c)
  | 13 => .ok (.loadimm f.la f.imm)
  | _ => .error (.illegalOpcode f.op)

/-- The decoder: a function of the instruction word alone (R85). -/
def decode (w : Word) : Except DecodeError Instr := (fields w).selectAt (fields w).op.toNat

/-- `{b0, b1, b2, b3}`: one word of the big-endian image (R56). -/
def wordOfBytes (b0 b1 b2 b3 : Byte) : Word := b0 ++ b1 ++ b2 ++ b3

/-- The decoder on the bytes of an image: the first four make the word (R56, R80), the rest follow it. -/
def decodeBytes : List Byte → Except BytesError (Instr × List Byte)
  | b0 :: b1 :: b2 :: b3 :: rest =>
    match decode (wordOfBytes b0 b1 b2 b3) with
    | .ok i => .ok (i, rest)
    | .error e => .error (.rejected e)
  | _ => .error .truncated

/-- What the decoder reads from a row of opcode_table.json whose bits are `w`: bit 0 the least significant bit of the one
instruction word (R80); every bit above `nbits` is 0. -/
def decodeTableWord (nbits w : Nat) : Option Instr :=
  match decode (BitVec.ofNat 32 (w % 2 ^ nbits)) with
  | .ok i => some i
  | .error _ => none

/-- The opcode of an instruction (R86). -/
def Instr.opcode : Instr → Nat
  | .cmov _ _ _ => 0
  | .segread _ _ _ => 1
  | .segwrite _ _ _ => 2
  | .add _ _ _ => 3
  | .mul _ _ _ => 4
  | .div _ _ _ => 5
  | .nand _ _ _ => 6
  | .halt => 7
  | .segalloc _ _ => 8
  | .segfree _ => 9
  | .out _ => 10
  | .inp _ => 11
  | .loadprog _ _ => 12
  | .loadimm _ _ => 13

/-- A register number in the field whose lowest bit is `lo` (R91). -/
def placeReg (r : Reg) (lo : Nat) : Word := BitVec.ofNat 32 r.val <<< lo

/-- `op << 28` (R91). -/
def placeOp (op : Nat) : Word := BitVec.ofNat 32 op <<< 28

/-- `enc3(op, A, B, C)` (R91). -/
def enc3 (op : Nat) (a b c : Reg) : Word := placeOp op ||| placeReg a 6 ||| placeReg b 3 ||| placeReg c 0

/-- `encLI(LA, imm)` (R91). -/
def encLI (la : Reg) (imm : Word) : Word := placeOp 13 ||| placeReg la 25 ||| imm

/-- The canonical encoding: every ignored bit is 0 (R89, R91, R92). -/
def encode : Instr → Word
  | .cmov a b c => enc3 0 a b c
  | .segread a b c => enc3 1 a b c
  | .segwrite a b c => enc3 2 a b c
  | .add a b c => enc3 3 a b c
  | .mul a b c => enc3 4 a b c
  | .div a b c => enc3 5 a b c
  | .nand a b c => enc3 6 a b c
  | .halt => enc3 7 0 0 0
  | .segalloc b c => enc3 8 0 b c
  | .segfree c => enc3 9 0 0 c
  | .out c => enc3 10 0 0 c
  | .inp c => enc3 11 0 0 c
  | .loadprog b c => enc3 12 0 b c
  | .loadimm la imm => encLI la imm

/-- The bits of a word that an instruction's row uses: the opcode and the fields R87 does not mark unused (R89). -/
def usedBits : Instr → Word
  | .cmov _ _ _ | .segread _ _ _ | .segwrite _ _ _ | .add _ _ _ | .mul _ _ _ | .div _ _ _ | .nand _ _ _ => 0xF00001FF
  | .halt => 0xF0000000
  | .segalloc _ _ | .loadprog _ _ => 0xF000003F
  | .segfree _ | .out _ | .inp _ => 0xF0000007
  | .loadimm _ _ => 0xFFFFFFFF

end Sys2Proof
end

