-- ==== Sys2Proof/Machine/Assoc.lean ====
section
/-! DEFINITION. Finite maps with natural-number keys as lists of pairs in rising order of key: the representation of a
segment's words and of the Segment Table (log 11). -/

namespace Sys2Proof.Machine

variable {β : Type}

/-- The value at a key, if the key is listed. -/
def Assoc.get (k : Nat) : List (Nat × β) → Option β
  | [] => none
  | e :: m => if k = e.1 then some e.2 else Assoc.get k m

/-- The map without a key. -/
def Assoc.del (k : Nat) (m : List (Nat × β)) : List (Nat × β) := m.filter (fun e => decide (e.1 ≠ k))

/-- The map with a key set to a value. -/
def Assoc.put (k : Nat) (v : β) (m : List (Nat × β)) : List (Nat × β) :=
  m.filter (fun e => decide (e.1 < k)) ++ (k, v) :: m.filter (fun e => decide (k < e.1))

/-- The keys, in the order of the list. -/
def Assoc.keys (m : List (Nat × β)) : List Nat := m.map Prod.fst

/-- The canonical form: keys strictly rising. -/
abbrev Assoc.Rising (m : List (Nat × β)) : Prop := (Assoc.keys m).Pairwise (· < ·)

end Sys2Proof.Machine
end

