-- ==== Sys2Proof/Machine/Mem.lean ====
section
/-! DEFINITION. Segments and the memory manager's contract: the answers of the fetch port and the memory port
(20_memory.md R41 to R55). A transaction answers a value and the memory after it, or a fault. -/

namespace Sys2Proof.Machine

/-! ### One segment -/

/-- `n` zero words (R50, R55). -/
def Segment.zeros (n : Nat) : Segment := { len := n, cells := [] }

/-- `s[off]`, if `off < len(s)` (R48). -/
def Segment.read (g : Segment) (off : Nat) : Option Word :=
  if off < g.len then some ((Assoc.get off g.cells).getD 0#32) else none

/-- `s[off] <- v` (R49). A word that becomes 0 leaves the list, which keeps the form canonical. -/
def Segment.write (g : Segment) (off : Nat) (v : Word) : Segment :=
  { g with cells := if v = 0#32 then Assoc.del off g.cells else Assoc.put off v g.cells }

/-- The cells of a list of words whose first word has offset `k`. -/
def Segment.cellsFrom (k : Nat) : List Word → List (Nat × Word)
  | [] => []
  | w :: ws => if w = 0#32 then Segment.cellsFrom (k + 1) ws else (k, w) :: Segment.cellsFrom (k + 1) ws

/-- The segment that holds the listed words. -/
def Segment.ofWords (ws : List Word) : Segment := { len := ws.length, cells := Segment.cellsFrom 0 ws }

/-- The canonical form of a segment, and the bound on its length (R46). -/
abbrev Segment.wf (g : Segment) : Prop :=
  Assoc.Rising g.cells ∧ (∀ c ∈ g.cells, c.1 < g.len ∧ c.2 ≠ 0#32) ∧ g.len < 2 ^ 32

/-! ### The memory -/

/-- The segment an identifier names: segment zero for 0, else the Segment Table's (R42, R48). -/
def Memory.segment (m : Memory) (id : Word) : Option Segment :=
  if id = 0#32 then some m.seg0 else Assoc.get id.toNat m.table

/-- An identifier is live when it is not 0 and the table has it (R47). -/
def Memory.live (m : Memory) (id : Word) : Bool := decide (id ≠ 0#32) && (Assoc.get id.toNat m.table).isSome

/-- The memory with the segment an identifier names replaced. -/
def Memory.setSegment (m : Memory) (id : Word) (g : Segment) : Memory :=
  if id = 0#32 then { m with seg0 := g } else { m with table := Assoc.put id.toNat g m.table }

/-- The word at `(id, off)`, if `id` is 0 or live and `off` is in bounds: the model's read of one word of memory. -/
def Memory.word (m : Memory) (id off : Word) : Option Word := (m.segment id).bind (fun g => g.read off.toNat)

/-- The length of the segment an identifier names. -/
def Memory.length (m : Memory) (id : Word) : Option Nat := (m.segment id).map (·.len)

/-- The canonical form of the memory: every segment canonical, identifiers strictly rising, non-zero 32-bit words, and
the Free-ID Pool holding such identifiers that are not live (R18, R47). -/
abbrev Memory.wf (m : Memory) : Prop :=
  m.seg0.wf ∧ Assoc.Rising m.table ∧ (∀ e ∈ m.table, 0 < e.1 ∧ e.1 < 2 ^ 32 ∧ e.2.wf) ∧
    m.freeIds.Pairwise (· < ·) ∧ (∀ i ∈ m.freeIds, 0 < i ∧ i < 2 ^ 32 ∧ Assoc.get i m.table = none)

/-! ### The transactions of R41 -/

/-- `Fetch(off)` (R44): the word of segment zero, or no word when `off >= len(seg0)`. -/
def Memory.fetch (m : Memory) (off : Word) : Option Word := m.seg0.read off.toNat

/-- `SegRead(id, off)` (R48): liveness before bounds. -/
def Memory.segRead (m : Memory) (id off : Word) : Except FaultEvent Word :=
  match m.segment id with
  | none => .error ⟨.segmentNotMapped, .ident id⟩
  | some g =>
    match g.read off.toNat with
    | none => .error ⟨.segmentOffsetOutOfBounds, .identOffset id off⟩
    | some w => .ok w

/-- `SegWrite(id, off, v)` (R49): the checks of `SegRead` in the same order, then the write. -/
def Memory.segWrite (m : Memory) (id off v : Word) : Except FaultEvent Memory :=
  match m.segment id with
  | none => .error ⟨.segmentNotMapped, .ident id⟩
  | some g =>
    match g.read off.toNat with
    | none => .error ⟨.segmentOffsetOutOfBounds, .identOffset id off⟩
    | some _ => .ok (m.setSegment id (g.write off.toNat v))

/-- The least number from `k` on that a strictly rising list does not hold. -/
def leastFree (k : Nat) : List Nat → Nat
  | [] => k
  | i :: is => if i = k then leastFree (k + 1) is else k

/-- Whether some non-zero identifier is not live. A canonical table lists each live identifier once, and there are
2^32 - 1 identifiers (R51, R64; log 16). -/
def Memory.hasFreeIdentifier (m : Memory) : Bool := decide (m.table.length < 2 ^ 32 - 1)

/-- The identifier an allocation returns: the drawn one where R50 allows it, "`id != 0` and `id` not live", else the least
identifier it allows. Every allowed identifier can be the drawn one (log 13). -/
def Memory.chooseIdentifier (m : Memory) (drawn : Word) : Word :=
  if drawn ≠ 0#32 ∧ m.live drawn = false then drawn else BitVec.ofNat 32 (leastFree 1 (Assoc.keys m.table))

/-- The effect of `SegAlloc(n)` that returned `id` (R50): `table(id)` is `n` zero words, and the Free-ID Pool gives `id` up. -/
def Memory.allocate (m : Memory) (id n : Word) : Memory :=
  { m with
    table := Assoc.put id.toNat (Segment.zeros n.toNat) m.table
    freeIds := m.freeIds.filter (fun i => decide (i ≠ id.toNat)) }

/-- `SegAlloc(n)` (R50, R51): the identifier and the memory after, `ALLOC_EXHAUSTED` where `canFail` holds and the draw
refuses or no identifier is free, or no answer at all where `canFail` does not hold and no identifier is free. -/
def Memory.segAlloc (m : Memory) (canFail refuses : Bool) (drawn n : Word) :
    Option (Except FaultEvent (Word × Memory)) :=
  match m.hasFreeIdentifier, canFail with
  | false, false => none
  | false, true => some (.error ⟨.allocExhausted, .size n⟩)
  | true, false => some (.ok (m.chooseIdentifier drawn, m.allocate (m.chooseIdentifier drawn) n))
  | true, true =>
    some (if refuses then .error ⟨.allocExhausted, .size n⟩
      else .ok (m.chooseIdentifier drawn, m.allocate (m.chooseIdentifier drawn) n))

/-- The Free-ID Pool with an identifier added, in rising order (log 12). -/
def insertId (k : Nat) (is : List Nat) : List Nat :=
  is.filter (fun i => decide (i < k)) ++ k :: is.filter (fun i => decide (k < i))

/-- `SegFree(id)` (R52). -/
def Memory.segFree (m : Memory) (id : Word) : Except FaultEvent Memory :=
  if m.live id then
    .ok { m with table := Assoc.del id.toNat m.table, freeIds := insertId id.toNat m.freeIds }
  else .error ⟨.badDeallocate, .ident id⟩

/-- `SegLoad(id)`, issued only with `id != 0` (R53): segment zero becomes a copy of `table(id)`. -/
def Memory.segLoad (m : Memory) (id : Word) : Except FaultEvent Memory :=
  match Assoc.get id.toNat m.table with
  | none => .error ⟨.segmentNotMapped, .ident id⟩
  | some g => .ok { m with seg0 := g }

/-! ### The image -/

/-- The big-endian words of an image's bytes (R56); no words when the length is not a multiple of 4 (R201, I4). -/
def imageWords : List Byte → Option (List Word)
  | [] => some []
  | b0 :: b1 :: b2 :: b3 :: rest => (imageWords rest).map (wordOfBytes b0 b1 b2 b3 :: ·)
  | _ => none

/-- Segment zero with one word placed at an offset, made long enough to hold it: what `State.withFetchWord` stores. -/
def Memory.plant (m : Memory) (off : Nat) (w : Word) : Memory :=
  { m with seg0 := Segment.write { m.seg0 with len := max m.seg0.len (off + 1) } off w }

end Sys2Proof.Machine
end

