-- ==== Sys2Proof/Machine/Operands.lean ====
section
/-! DEFINITION. The operand forms: a register number selects a register, and there is one immediate (R13, R84). There are
no memory operands or addressing modes in the encoding (R84). -/

namespace Sys2Proof.Machine

/-- `x[i]` (R13). None of the eight is hard-wired or an alias (R20). -/
def State.readReg (s : State) (r : Reg) : Word := s.regs[r]

/-- `x[i] <- v` (R13). -/
def State.writeReg (s : State) (r : Reg) (v : Word) : State := { s with regs := s.regs.set r v }

/-- The immediate operand: bits 24..0, zero-extended (R84). -/
def immediate (imm : Word) : Word := immField imm

/-- `v[7:0]`: the byte OUT sends (R58, R161). -/
def lowByte (v : Word) : Byte := v.extractLsb' 0 8

/-- `zext_32(b)`: the word IN writes for a byte (R58, R164). -/
def wordOfByte (b : Byte) : Word := b.setWidth 32

end Sys2Proof.Machine
end

