-- ==== Sys2Proof/Machine/Ops.lean ====
section
/-! DEFINITION. The operations that instructions share: the program counter (R100), taking a fault (R171), a port's
answer (R140), the I/O port (R62, R63), and a program's installation (R201). -/

namespace Sys2Proof.Machine

/-! ### Named updates of one field -/

/-- `pc <- target` (R13). -/
def State.setPc (s : State) (target : Word) : State := { s with pc := target }

/-- The memory after a transaction. -/
def State.setMem (s : State) (m : Memory) : State := { s with mem := m }

/-- The run state. -/
def State.setRun (s : State) (r : RunState) : State := { s with run := r }

/-- One more identifier drawn (log 13). -/
def State.countDraw (s : State) : State := { s with draws := s.draws + 1 }

/-- The advance `pc <- pc + 1`, modulo 2^32, right after the fetch (R26, R27). -/
def State.advance (s : State) : State := s.setPc (s.pc + 1#32)

/-! ### Faults -/

/-- FAULT ENTRY, the one shared operation (R171): the record is written, the run state becomes `FAULTED`, nothing else
changes. There is no return from a fault (R174). -/
def State.enterFault (s : State) (pc0 : Word) (w : Option Word) (e : FaultEvent) : State :=
  { s with run := .faulted, fault := { cause := e.cause, faultPc := pc0, faultWord := w, faultInfo := e.info } }

/-- `raise Fault(cause, info)` by an instruction or the decoder, after the advance: `pc0` is `pc - 1`. DEDUCED: the word is
read back at `pc0`, which gives the fetched word, since a faulting step has changed nothing but `pc` (R173; log 8). -/
def State.raise (s : State) (e : FaultEvent) : State := s.enterFault (s.pc - 1#32) (s.mem.fetch (s.pc - 1#32)) e

/-- The fault of a fetch at `pc0 >= len(seg0)` (R44, R101): before the advance, and with no word. -/
def State.raiseFetchFault (s : State) : State := s.enterFault s.pc none ⟨.fetchOutOfBounds, .offset s.pc⟩

/-- `Fault(ILLEGAL_OPCODE, op)` (R88, R101), after the advance. -/
def State.raiseDecodeFault (s : State) (d : DecodeError) : State :=
  match d with
  | .illegalOpcode op => s.raise ⟨.illegalOpcode, .opcode op⟩

/-- A port's answer (R140): on success the instruction goes on, on a fault it raises it with the port's information. -/
def State.onAnswer {α : Type} (s : State) (r : Except FaultEvent α) (k : α → State) : State :=
  match r with
  | .ok a => k a
  | .error e => s.raise e

/-! ### The I/O port -/

/-- A drawn answer: `none` stands for `EOS`. -/
def InputAnswer.ofDraw : Option Byte → InputAnswer
  | some b => .byte b
  | none => .eos

/-- `IoIn()` (R62): the host's next answer and the state after it, or no answer (R165). The spec leaves each answer to the
host (D21). DESIGN CHOICE: the answers are a finite list, then `EOS` for ever, silence, or draws for ever (log 18). -/
def State.ioIn (s : State) : Option (InputAnswer × State) :=
  match s.input with
  | a :: rest => some (a, { s with input := rest })
  | [] =>
    match s.inputAfter with
    | .endOfStream => some (.eos, s)
    | .noAnswer => none
    | .drawn n => some (InputAnswer.ofDraw (Config.freeInputAnswer n), { s with inputAfter := .drawn (n + 1) })

/-- `IoOut(b)` (R63): the byte is appended to the output stream; no state when the host does not take it (R163). -/
def State.ioOut (s : State) (b : Byte) : Option State :=
  match s.outputRoom with
  | some 0 => none
  | some (n + 1) => some { s with output := s.output ++ [b], outputRoom := some n }
  | none => some { s with output := s.output ++ [b] }

/-- The word IN writes for an answer (R164). -/
def inputWord : InputAnswer → Word
  | .byte b => wordOfByte b
  | .eos => Word.allOnes

/-! ### The status output -/

/-- The numeric code of a cause (R172), as the status output shows it (R65). -/
def FaultCause.code : FaultCause → Nat
  | .none => 0
  | .illegalOpcode => 1
  | .fetchOutOfBounds => 2
  | .segmentOffsetOutOfBounds => 3
  | .segmentNotMapped => 4
  | .reservedSegmentZero => 5
  | .divideByZero => 6
  | .outputOutOfRange => 7
  | .badDeallocate => 8
  | .allocExhausted => 9

/-- The exit status of a finished run (R65): 0 after HALT, `FAULT_EXIT_STATUS` after a fault, none while running. -/
def State.exitStatus (s : State) : Option Nat :=
  match s.run with
  | .running => none
  | .halted => some 0
  | .faulted => some Config.faultExitStatus

/-! ### Installing a program -/

/-- The machine before its first step with an image installed as segment zero (R65, R201): reset, then the loader's
`install_program`. A malformed image, or one of 2^32 words or more (D20), is refused (log 21). -/
def State.boot (image : List Byte) : Option State :=
  match imageWords image with
  | none => none
  | some ws =>
    if ws.length < 2 ^ 32 then some (State.reset.setMem { Memory.reset with seg0 := Segment.ofWords ws }) else none

/-- The machine with one instruction word where the next step fetches it, and able to take that step (log 21). -/
def State.placeWord (s : State) (w : Word) : State :=
  match s.run with
  | .running => s.setMem (s.mem.plant s.pc.toNat w)
  | .halted | .faulted => { s with run := .running, fault := FaultRecord.reset, mem := s.mem.plant s.pc.toNat w }

end Sys2Proof.Machine
end

