-- ==== Sys2Proof/Machine/Alu.lean ====
section
/-! DEFINITION. The ALU and the register-to-register instructions (41_alu.md R120 to R133). Each meaning runs after the
fetch and the advance of `pc` (R101). -/

namespace Sys2Proof.Machine

/-- `b + c`, modulo 2^32 (R120, R124). -/
def aluAdd (b c : Word) : Word := b + c

/-- `b * c`, modulo 2^32 (R120, R126). -/
def aluMul (b c : Word) : Word := b * c

/-- `b div c`, unsigned (R120, R127); DIV uses it only with `c != 0`. -/
def aluDiv (b c : Word) : Word := BitVec.ofNat 32 (b.toNat / c.toNat)

/-- `~(b & c)` (R120, R130). -/
def aluNand (b c : Word) : Word := ~~~(b &&& c)

/-- CMOV (R121): the destination takes the source when the condition is not 0. -/
def execCmov (a b c : Reg) (s : State) : Host.Outcome State Fault Refusal :=
  .next (if isNonZero (s.readReg c) then s.writeReg a (s.readReg b) else s)

/-- ADD (R123). -/
def execAdd (a b c : Reg) (s : State) : Host.Outcome State Fault Refusal :=
  .next (s.writeReg a (aluAdd (s.readReg b) (s.readReg c)))

/-- MUL (R125). -/
def execMul (a b c : Reg) (s : State) : Host.Outcome State Fault Refusal :=
  .next (s.writeReg a (aluMul (s.readReg b) (s.readReg c)))

/-- DIV (R127): a zero divisor raises `DIVIDE_BY_ZERO` with the dividend. -/
def execDiv (a b c : Reg) (s : State) : Host.Outcome State Fault Refusal :=
  .next (if isZero (s.readReg c) then s.raise ⟨.divideByZero, .dividend (s.readReg b)⟩
    else s.writeReg a (aluDiv (s.readReg b) (s.readReg c)))

/-- NAND (R129). -/
def execNand (a b c : Reg) (s : State) : Host.Outcome State Fault Refusal :=
  .next (s.writeReg a (aluNand (s.readReg b) (s.readReg c)))

/-- LOADIMM (R131). -/
def execLoadimm (la : Reg) (imm : Word) (s : State) : Host.Outcome State Fault Refusal :=
  .next (s.writeReg la (immediate imm))

end Sys2Proof.Machine
end

