-- ==== Sys2Proof/Machine/Control.lean ====
section
/-! DEFINITION. HALT and LOADPROG (40_sequencing.md R105, R108). -/

namespace Sys2Proof.Machine

/-- HALT (R105). -/
def execHalt (s : State) : Host.Outcome State Fault Refusal := .next (s.setRun .halted)

/-- LOADPROG (R108): with identifier 0 no port request is issued; the target is not checked. -/
def execLoadprog (b c : Reg) (s : State) : Host.Outcome State Fault Refusal :=
  .next (if isNonZero (s.readReg b)
    then s.onAnswer (s.mem.segLoad (s.readReg b)) (fun m => (s.setMem m).setPc (s.readReg c))
    else s.setPc (s.readReg c))

end Sys2Proof.Machine
end

