-- ==== Sys2Proof/Machine/Io.lean ====
section
/-! DEFINITION. The input and output instructions (43_io.md R161 to R165). -/

namespace Sys2Proof.Machine

/-- OUT (R161): the range test comes before the port request; the step is held while the host does not take the byte (R163). -/
def execOut (c : Reg) (s : State) : Host.Outcome State Fault Refusal :=
  if exceedsByte (s.readReg c) then .next (s.raise ⟨.outputOutOfRange, .value (s.readReg c)⟩)
  else
    match s.ioOut (lowByte (s.readReg c)) with
    | none => .fault .outputHeld
    | some t => .next t

/-- IN (R164): end of stream gives all ones; the step is held while the host does not answer (R165). -/
def execInp (c : Reg) (s : State) : Host.Outcome State Fault Refusal :=
  match s.ioIn with
  | none => .fault .inputHeld
  | some (r, t) => .next (t.writeReg c (inputWord r))

end Sys2Proof.Machine
end

