-- ==== Sys2Proof/Machine/Segments.lean ====
section
/-! DEFINITION. The segment instructions (42_segment_ops.md R140 to R152): read the operands, issue one transaction, write
at most one register. Every segment fault comes from the port (R140). -/

namespace Sys2Proof.Machine

/-- SEGREAD (R141). -/
def execSegread (a b c : Reg) (s : State) : Host.Outcome State Fault Refusal :=
  .next (s.onAnswer (s.mem.segRead (s.readReg b) (s.readReg c)) (fun v => s.writeReg a v))

/-- SEGWRITE (R145). -/
def execSegwrite (a b c : Reg) (s : State) : Host.Outcome State Fault Refusal :=
  .next (s.onAnswer (s.mem.segWrite (s.readReg a) (s.readReg b) (s.readReg c)) (fun m => s.setMem m))

/-- SEGALLOC (R149): the identifier is a draw (R150); with no identifier left and `ALLOC_CAN_FAIL` false the step is stuck. -/
def execSegalloc (b c : Reg) (s : State) : Host.Outcome State Fault Refusal :=
  match s.mem.segAlloc s.allocCanFail (Config.freeAllocRefusal s.draws) (Config.freeIdentifier s.draws)
      (s.readReg c) with
  | none => .fault .allocStuck
  | some r => .next (s.onAnswer r (fun p => ((s.setMem p.2).countDraw).writeReg b p.1))

/-- SEGFREE (R152). -/
def execSegfree (c : Reg) (s : State) : Host.Outcome State Fault Refusal :=
  .next (s.onAnswer (s.mem.segFree (s.readReg c)) (fun m => s.setMem m))

end Sys2Proof.Machine
end

