-- ==== Sys2Proof/Machine/Dispatch.lean ====
section
/-! DEFINITION. Dispatch by opcode (40_sequencing.md R103). -/

namespace Sys2Proof.Machine

def exec (i : Instr) (s : State) : Host.Outcome State Fault Refusal :=
  match i with
  | .cmov a b c => Sys2Proof.Machine.execCmov a b c s
  | .segread a b c => Sys2Proof.Machine.execSegread a b c s
  | .segwrite a b c => Sys2Proof.Machine.execSegwrite a b c s
  | .add a b c => Sys2Proof.Machine.execAdd a b c s
  | .mul a b c => Sys2Proof.Machine.execMul a b c s
  | .div a b c => Sys2Proof.Machine.execDiv a b c s
  | .nand a b c => Sys2Proof.Machine.execNand a b c s
  | .halt => Sys2Proof.Machine.execHalt s
  | .segalloc b c => Sys2Proof.Machine.execSegalloc b c s
  | .segfree c => Sys2Proof.Machine.execSegfree c s
  | .out c => Sys2Proof.Machine.execOut c s
  | .inp c => Sys2Proof.Machine.execInp c s
  | .loadprog b c => Sys2Proof.Machine.execLoadprog b c s
  | .loadimm la imm => Sys2Proof.Machine.execLoadimm la imm s

end Sys2Proof.Machine
end

