-- ==== Sys2Proof/Machine/Step.lean ====
section
/-! DEFINITION. One step (40_sequencing.md R101): fetch, advance, decode, dispatch. -/

namespace Sys2Proof.Machine

/-- A step in the `RUNNING` state (R101); in `HALTED` and `FAULTED` "there is no step" (R104). -/
def step (s : State) : Host.Outcome State Fault Refusal :=
  match s.run with
  | .halted => .fault .halted
  | .faulted => .fault .faulted
  | .running =>
    match s.mem.fetch s.pc with
    | none => .next s.raiseFetchFault
    | some w =>
      match decode w with
      | .error d => .next (s.advance.raiseDecodeFault d)
      | .ok i => exec i s.advance

/-- `s` with the table row's word (bits from `nbits` up are 0) where the next step fetches it (log 21). -/
def State.withFetchWord (s : State) (nbits w : Nat) : State := s.placeWord (BitVec.ofNat 32 (w % 2 ^ nbits))

end Sys2Proof.Machine
end

