-- ==== Sys2Proof/Machine/Assembler.lean ====
section
/-! DEFINITION. The spec's assembler syntax and its idioms (30_encoding.md R92, R93). "They are not instructions, and a decoder
never produces them": an idiom is a list of instructions, and nothing of the machine depends on this file. -/

namespace Sys2Proof.Machine

/-- `r0` to `r7` (R92). -/
def regText (r : Reg) : String := "r" ++ toString r.val

/-- A mnemonic with its operands (R92). -/
def operandText (mnemonic : String) (operands : List String) : String := mnemonic ++ " " ++ ", ".intercalate operands

/-- The text of an instruction (R92); an immediate is written in decimal. -/
def instrText : Instr → String
  | .cmov a b c => operandText "CMOV" [regText a, regText b, regText c]
  | .segread a b c => operandText "SEGREAD" [regText a, regText b, regText c]
  | .segwrite a b c => operandText "SEGWRITE" [regText a, regText b, regText c]
  | .add a b c => operandText "ADD" [regText a, regText b, regText c]
  | .mul a b c => operandText "MUL" [regText a, regText b, regText c]
  | .div a b c => operandText "DIV" [regText a, regText b, regText c]
  | .nand a b c => operandText "NAND" [regText a, regText b, regText c]
  | .halt => "HALT"
  | .segalloc b c => operandText "SEGALLOC" [regText b, regText c]
  | .segfree c => operandText "SEGFREE" [regText c]
  | .out c => operandText "OUT" [regText c]
  | .inp c => operandText "IN" [regText c]
  | .loadprog b c => operandText "LOADPROG" [regText b, regText c]
  | .loadimm la imm => operandText "LOADIMM" [regText la, "#" ++ toString imm.toNat]

/-- The canonical word; "An assembler refuses an immediate above `0x01FFFFFF`; it has no encoding" (R92). -/
def assemble (i : Instr) : Option Word := if i.wf then some (encode i) else none

/-- `NOP` (R93). -/
def idiomNop (x y : Reg) : List Instr := [.cmov x x y]

/-- `NOT rA, rB` (R93). -/
def idiomNot (a b : Reg) : List Instr := [.nand a b b]

/-- `AND rA, rB, rC` (R93). -/
def idiomAnd (a b c : Reg) : List Instr := [.nand a b c, .nand a a a]

/-- `MOV rA, rB` with the temporary T (R93). -/
def idiomMov (t a b : Reg) : List Instr := [.loadimm t 1#32, .cmov a b t]

/-- `NEG rA, rB` with the temporary T (R93). -/
def idiomNeg (t a b : Reg) : List Instr := [.nand a b b, .loadimm t 1#32, .add a a t]

/-- `SUB rA, rB, rC` with the temporary T, and U the temporary of its NEG (R93). -/
def idiomSub (t u a b c : Reg) : List Instr := idiomNeg u t c ++ [.add a b t]

/-- `JMP rC` with the temporary Z (R93). -/
def idiomJmp (z c : Reg) : List Instr := [.loadimm z 0#32, .loadprog z c]

/-- The instructions of a list run one after another as steps that fetched them would: each after its advance (R101). -/
def execList : List Instr → State → Host.Outcome State Fault Refusal
  | [], s => .next s
  | i :: is, s =>
    match exec i s.advance with
    | .next t => execList is t
    | .fault f => .fault f
    | .refused r => .refused r

end Sys2Proof.Machine
end

