-- ==== Sys2Proof/Safety.lean ====
section
/-! DEFINITION. What claims use: terminal states, the invariant of the machine, and what a step may write. -/

namespace Sys2Proof.Machine

/-- Which `fault_info` a cause has (R172). -/
def FaultCause.infoMatches : FaultCause → FaultInfo → Bool
  | .none, _ => true
  | .illegalOpcode, .opcode op => decide (13 < op.toNat)
  | .fetchOutOfBounds, .offset _ => true
  | .segmentOffsetOutOfBounds, .identOffset _ _ => true
  | .segmentNotMapped, .ident id => decide (id ≠ 0#32)
  | .divideByZero, .dividend _ => true
  | .outputOutOfRange, .value v => decide (255 < v.toNat)
  | .badDeallocate, .ident _ => true
  | .allocExhausted, .size _ => true
  | _, _ => false

/-- What the fault record of a state says agrees with the rest of it: no fault while not `FAULTED` (R29, R30); else a cause
an instruction raises (R54) with its own information (R172), `fault_pc` one before `pc`, or `pc` itself for a fetch fault
(R107, R171), and the word segment zero holds there, which is none for a fetch fault only (R30). -/
structure FaultRecord.Agrees (s : State) : Prop where
  none_iff : s.fault.cause = .none ↔ s.run ≠ .faulted
  info : s.fault.cause.infoMatches s.fault.faultInfo = true
  pc_of_fetch : s.fault.cause = .fetchOutOfBounds → s.pc = s.fault.faultPc
  pc_of_other : s.run = .faulted → s.fault.cause ≠ .fetchOutOfBounds → s.pc = s.fault.faultPc + 1#32
  word : s.run = .faulted → s.fault.faultWord = s.mem.fetch s.fault.faultPc
  word_none : s.run = .faulted → (s.fault.faultWord = none ↔ s.fault.cause = .fetchOutOfBounds)

/-- The invariant of the machine: the memory is canonical, and the fault record agrees with the state. -/
structure State.Inv (s : State) : Prop where
  mem : s.mem.wf
  record : FaultRecord.Agrees s

/-- The register an instruction writes when it completes (R24), if any. -/
def destination : Instr → Option Reg
  | .cmov a _ _ | .segread a _ _ | .add a _ _ | .mul a _ _ | .div a _ _ | .nand a _ _ => some a
  | .segalloc b _ => some b
  | .inp c => some c
  | .loadimm la _ => some la
  | .segwrite _ _ _ | .halt | .segfree _ | .out _ | .loadprog _ _ => none

/-- `t` is `s` with register `a` holding `v`: every other register, and everything that is no register, as before. -/
def WritesOnly (s t : State) (a : Reg) (v : Word) : Prop :=
  t.readReg a = v ∧ (∀ r, r ≠ a → t.readReg r = s.readReg r) ∧ { t with regs := s.regs } = s

/-- `t` is `s` after taking the fault `(cause, info)` charged to the instruction at `pc0` whose word is `w` (R171): the
record, the run state, and nothing else. -/
def TakesFault (s t : State) (pc0 : Word) (w : Option Word) (cause : FaultCause) (info : FaultInfo) : Prop :=
  t.run = .faulted ∧ t.fault.cause = cause ∧ t.fault.faultPc = pc0 ∧ t.fault.faultWord = w ∧
    t.fault.faultInfo = info ∧ { t with run := s.run, fault := s.fault } = s

/-- `t` is `s` after an instruction whose advance has been made raised `(cause, info)`: it is charged to the offset before
`pc` and to the word segment zero holds there (log 8). -/
def Raises (s t : State) (cause : FaultCause) (info : FaultInfo) : Prop :=
  TakesFault s t (s.pc - 1#32) (s.mem.fetch (s.pc - 1#32)) cause info

/-- Some identifier is free: not 0 and not live (R50). -/
def Memory.SomeFree (m : Memory) : Prop := ∃ id : Word, id ≠ 0#32 ∧ m.live id = false

/-- `m'` is `m` with a segment of `n` zero words under `id`, which was free (R50); every other identifier names the segment
it named, and the Free-ID Pool gives `id` up and keeps the rest (R18; the pool's form is log 12). -/
def Memory.Allocated (m m' : Memory) (id n : Word) : Prop :=
  id ≠ 0#32 ∧ m.live id = false ∧ m'.live id = true ∧ m'.length id = some n.toNat ∧
    (∀ off : Word, off.toNat < n.toNat → m'.word id off = some 0#32) ∧
    (∀ q, q ≠ id → m'.segment q = m.segment q) ∧
    (∀ i, i ∈ m'.freeIds ↔ i ∈ m.freeIds ∧ i ≠ id.toNat)

/-- `t` is `s` after SEGALLOC rB, rC completed: some free identifier in `x[B]`, its segment allocated, and nothing else
but the model's own count of draws (R149). -/
def Allocates (s t : State) (b c : Reg) : Prop :=
  Memory.Allocated s.mem t.mem (t.readReg b) (s.readReg c) ∧ (∀ r, r ≠ b → t.readReg r = s.readReg r) ∧
    { t with regs := s.regs, mem := s.mem, draws := s.draws } = s

end Sys2Proof.Machine
end

