-- ==== Sys2Proof/Certificates/Slice0/Obligations.lean ====
section
/-! DEFINITION. The statements for the provers. `Raises s t cause info`, `WritesOnly s t r v`, `TakesFault` and `Allocates`
stand in Safety.lean. Every statement about `exec` is about a state whose `pc` has been advanced (R101). The roles of A, B and C
are spec decision D1 (log 1), so a statement about an instruction that has register operands is 'derived'. -/

open Sys2Proof Sys2Proof.Machine

/-! ### Encoding and decoding -/

/-- Words written out in 95_test_vectors.md §2.1 decode to the instructions named there; opcodes 14 and 15 are rejected. -/
def Obligations.SpecWordsDecode : Prop :=
  decode 0x00000053#32 = .ok (.cmov 1 2 3) ∧ decode 0x30000053#32 = .ok (.add 1 2 3) ∧
  decode 0x0FFFFE53#32 = .ok (.cmov 1 2 3) ∧ decode 0xD3FFFFFF#32 = .ok (.loadimm 1 0x1FFFFFF#32) ∧
  decode 0xDFFFFFFF#32 = .ok (.loadimm 7 0x1FFFFFF#32) ∧ decode 0x7FFFFFFF#32 = .ok .halt ∧
  decode 0xA00001C1#32 = .ok (.out 1) ∧ decode 0xD0000000#32 = .ok (.loadimm 0 0#32) ∧
  decode 0xE0000000#32 = .error (.illegalOpcode 14) ∧ decode 0xFFFFFFFF#32 = .error (.illegalOpcode 15)

/-- R85: the six raw slices of a word, as numbers, and `legal`. -/
def Obligations.RawSlicesAndLegal : Prop :=
  ∀ w : Word,
    (fields w).op.toNat = w.toNat / 2 ^ 28 ∧ (fields w).a.val = w.toNat / 2 ^ 6 % 8 ∧
    (fields w).b.val = w.toNat / 2 ^ 3 % 8 ∧ (fields w).c.val = w.toNat % 8 ∧
    (fields w).la.val = w.toNat / 2 ^ 25 % 8 ∧ (fields w).imm.toNat = w.toNat % 2 ^ 25 ∧
    ((fields w).legal = true ↔ w.toNat / 2 ^ 28 ≤ 13)

/-- R81: opcode values 0 to 13 select the instruction of that opcode. -/
def Obligations.OpcodeSelectsInstruction : Prop :=
  ∀ w : Word, w.toNat / 2 ^ 28 ≤ 13 → ∃ i, decode w = .ok i ∧ i.opcode = w.toNat / 2 ^ 28

/-- R83: the load-immediate form; it has no unused bits, so the instruction gives the whole word back. -/
def Obligations.LoadImmediateForm : Prop :=
  ∀ w : Word, w.toNat / 2 ^ 28 = 13 →
    ∃ la imm, decode w = .ok (.loadimm la imm) ∧ la.val = w.toNat / 2 ^ 25 % 8 ∧ imm.toNat = w.toNat % 2 ^ 25 ∧
      encode (.loadimm la imm) = w

/-- HEADLINE: the canonical word of every well-formed instruction decodes to it, every operand included (R91, R92). -/
def Obligations.DecodeOfEncode : Prop := ∀ i : Instr, i.WellFormed → decode (encode i) = .ok i

/-- The canonical encoding of what a word decodes to is the word with every ignored bit 0 (R89, decision D5; log 5). -/
def Obligations.EncodeOfDecodeIsCanonical : Prop :=
  ∀ (w : Word) (i : Instr), decode w = .ok i → i.WellFormed ∧ encode i = w &&& usedBits i

/-- Ignored bits never matter: a word that agrees on the used bits decodes alike (R89, decision D5; log 5). -/
def Obligations.IgnoredBitsNeverMatter : Prop :=
  ∀ (w w' : Word) (i : Instr), decode w = .ok i → w' &&& usedBits i = w &&& usedBits i → decode w' = .ok i

/-! ### The step -/

/-- R101: fetch, advance, decode, dispatch; a fetch fault before the advance, every later fault after it. -/
def Obligations.StepRunsDecodedInstruction : Prop :=
  ∀ s : State, s.run = .running →
    (s.mem.fetch s.pc = none → step s = .next (s.enterFault s.pc none ⟨.fetchOutOfBounds, .offset s.pc⟩)) ∧
    (∀ w op, s.mem.fetch s.pc = some w → decode w = .error (.illegalOpcode op) →
      step s = .next (State.raise { s with pc := s.pc + 1#32 } ⟨.illegalOpcode, .opcode op⟩)) ∧
    (∀ w i, s.mem.fetch s.pc = some w → decode w = .ok i → step s = exec i { s with pc := s.pc + 1#32 }) ∧
    (∀ w t, s.mem.fetch s.pc = some w → step s = .next t → t.run = .faulted → t.pc = s.pc + 1#32)

/-- R44: a fetch answers the word of segment zero below its length, and faults at or beyond it. -/
def Obligations.FetchIsBounded : Prop :=
  ∀ s : State, s.run = .running →
    (s.mem.seg0.len ≤ s.pc.toNat →
      ∃ t, step s = .next t ∧ TakesFault s t s.pc none .fetchOutOfBounds (.offset s.pc)) ∧
    (s.pc.toNat < s.mem.seg0.len → ∃ w, s.mem.seg0.read s.pc.toNat = some w ∧ s.mem.fetch s.pc = some w)

/-- R88: a word of opcode 14 or 15 faults after the advance, whatever its other 28 bits. -/
def Obligations.IllegalOpcodeFaults : Prop :=
  ∀ (s : State) (w : Word), s.run = .running → s.mem.fetch s.pc = some w → 13 < w.toNat / 2 ^ 28 →
    ∃ t, step s = .next t ∧
      TakesFault { s with pc := s.pc + 1#32 } t s.pc (some w) .illegalOpcode (.opcode (BitVec.ofNat 4 (w.toNat / 2 ^ 28)))

/-- R104: in `HALTED` and in `FAULTED` there is no step, for ever: no next state, and so no fetch, request or change. -/
def Obligations.NoStepOnceStopped : Prop :=
  (∀ s t : State, s.run = .halted → step s ≠ .next t) ∧ (∀ s t : State, s.run = .faulted → step s ≠ .next t)

/-- R107 (derived): the program counter after every outcome of a step. -/
def Obligations.NextPcOfEveryOutcome : Prop :=
  ∀ s t : State, step s = .next t →
    (s.mem.fetch s.pc = none → t.pc = s.pc) ∧
    (∀ w op, s.mem.fetch s.pc = some w → decode w = .error (.illegalOpcode op) → t.pc = s.pc + 1#32) ∧
    (∀ w i, s.mem.fetch s.pc = some w → decode w = .ok i → (∀ b c, i ≠ .loadprog b c) → t.pc = s.pc + 1#32) ∧
    (∀ w b c, s.mem.fetch s.pc = some w → decode w = .ok (.loadprog b c) →
      (t.run = .faulted → t.pc = s.pc + 1#32) ∧ (t.run ≠ .faulted → t.pc = s.readReg c))

/-- No instruction reads `pc` as an operand (R26, R100): started at another `pc` it answers the same state but for `pc` and
the record's `fault_pc` and `fault_word`. A LOADPROG that completes jumps to the same target; everything else leaves `pc` as
it was started (which LOADPROG completes: roles D1, log 1). Both runs make the same draws of `Config` (log 13, 18). -/
def Obligations.NoInstructionReadsPc : Prop :=
  ∀ (i : Instr) (s t : State) (p : Word), exec i s = .next t →
    ∃ t', exec i { s with pc := p } = .next t' ∧
      { t' with
        pc := t.pc
        fault := { t'.fault with faultPc := t.fault.faultPc, faultWord := t.fault.faultWord } } = t ∧
      (∀ b c, i = .loadprog b c → s.readReg b = 0#32 ∨ s.mem.live (s.readReg b) = true → t'.pc = t.pc) ∧
      ((∀ b c, i = .loadprog b c → s.readReg b ≠ 0#32 ∧ s.mem.live (s.readReg b) = false) → t'.pc = p)

/-- A fetch that succeeds leaves room for the advance: it does not wrap (R27, derived), in every state of the invariant. -/
def Obligations.AdvanceNeverWraps : Prop :=
  ∀ (s : State) (w : Word), s.Inv → s.mem.fetch s.pc = some w → (s.pc + 1#32).toNat = s.pc.toNat + 1

/-! ### ALU and register-to-register instructions -/

/-- R124, R126, R130: the laws of add, multiply and NAND, for unsigned and for two's-complement readings. -/
def Obligations.AluLaws : Prop :=
  ∀ x y : Word,
    (aluAdd x y).toNat = (x.toNat + y.toNat) % 2 ^ 32 ∧ (aluAdd x y).toInt = (x.toInt + y.toInt).bmod (2 ^ 32) ∧
    (aluMul x y).toNat = x.toNat * y.toNat % 2 ^ 32 ∧ (aluMul x y).toInt = (x.toInt * y.toInt).bmod (2 ^ 32) ∧
    aluNand x y = ~~~(x &&& y) ∧
    ∀ n, n < 32 → ((aluNand x y).getLsbD n = true ↔ x.getLsbD n = false ∨ y.getLsbD n = false)

/-- CMOV (R121, R122; roles D1): a non-zero condition moves, a zero condition changes nothing at all. -/
def Obligations.CmovMovesOnNonZero : Prop :=
  ∀ (s : State) (a b c : Reg),
    (s.readReg c ≠ 0#32 → ∃ t, exec (.cmov a b c) s = .next t ∧ WritesOnly s t a (s.readReg b)) ∧
    (s.readReg c = 0#32 → exec (.cmov a b c) s = .next s)

/-- ADD (R123; roles D1): the sum modulo 2^32, and nothing else changes. -/
def Obligations.AddWritesSum : Prop :=
  ∀ (s : State) (a b c : Reg), ∃ t, exec (.add a b c) s = .next t ∧
    WritesOnly s t a (BitVec.ofNat 32 (((s.readReg b).toNat + (s.readReg c).toNat) % 2 ^ 32))

/-- MUL (R125; roles D1): the low 32 bits of the product, and nothing else changes. -/
def Obligations.MulWritesProduct : Prop :=
  ∀ (s : State) (a b c : Reg), ∃ t, exec (.mul a b c) s = .next t ∧
    WritesOnly s t a (BitVec.ofNat 32 ((s.readReg b).toNat * (s.readReg c).toNat % 2 ^ 32))

/-- DIV with a non-zero divisor (R127; roles D1): the unsigned quotient, with no wrap, and nothing else changes. -/
def Obligations.DivWritesQuotient : Prop :=
  ∀ (s : State) (a b c : Reg), s.readReg c ≠ 0#32 →
    ∃ t v, exec (.div a b c) s = .next t ∧ WritesOnly s t a v ∧ v.toNat = (s.readReg b).toNat / (s.readReg c).toNat

/-- DIV by zero in a step (R127, R128, R171; roles D1): the fault, charged to this instruction, with the dividend; nothing
is output and there is no further step. -/
def Obligations.DivideByZeroEndsTheRun : Prop :=
  ∀ (s : State) (w : Word) (a b c : Reg), s.run = .running → s.mem.fetch s.pc = some w → decode w = .ok (.div a b c) →
    s.readReg c = 0#32 →
    ∃ t, step s = .next t ∧
      TakesFault { s with pc := s.pc + 1#32 } t s.pc (some w) .divideByZero (.dividend (s.readReg b)) ∧
      t.output = s.output ∧ ∀ u, step t ≠ .next u

/-- NAND (R129; roles D1): each bit is 0 exactly when both operands' bits are 1, and nothing else changes. -/
def Obligations.NandWritesComplementOfAnd : Prop :=
  ∀ (s : State) (a b c : Reg), ∃ t v, exec (.nand a b c) s = .next t ∧ WritesOnly s t a v ∧
    ∀ n, n < 32 → v.getLsbD n = !((s.readReg b).getLsbD n && (s.readReg c).getLsbD n)

/-- LOADIMM (R131): the destination takes the immediate; as a term, and as any word of opcode 13 that a step fetches. -/
def Obligations.LoadimmWritesImmediate : Prop :=
  (∀ (s : State) (la : Reg) (imm : Word), imm.toNat ≤ 0x01FFFFFF →
    ∃ t, exec (.loadimm la imm) s = .next t ∧ WritesOnly s t la imm) ∧
  (∀ (s : State) (w : Word) (la : Reg), s.run = .running → s.mem.fetch s.pc = some w → w.toNat / 2 ^ 28 = 13 →
    la.val = w.toNat / 2 ^ 25 % 8 →
    ∃ t, step s = .next t ∧
      WritesOnly { s with pc := s.pc + 1#32 } t la (BitVec.ofNat 32 (w.toNat % 2 ^ 25)))

/-! ### HALT and LOADPROG -/

/-- HALT (R105): only the run state changes; any word of opcode 7 that a step fetches, whatever its ignored bits (R89, the
spec's decision D5; log 5), does so after the advance, and the exit status is then 0. -/
def Obligations.HaltEntersHalted : Prop :=
  (∀ s : State, exec .halt s = .next { s with run := .halted }) ∧
  (∀ (s : State) (w : Word), s.run = .running → s.mem.fetch s.pc = some w → w.toNat / 2 ^ 28 = 7 →
    step s = .next { s with pc := s.pc + 1#32, run := .halted } ∧
    State.exitStatus { s with pc := s.pc + 1#32, run := .halted } = some 0)

/-- LOADPROG with identifier 0 (R108; roles D1): only `pc` changes, and the target is not checked. -/
def Obligations.LoadprogZeroOnlyJumps : Prop :=
  ∀ (s : State) (b c : Reg), s.readReg b = 0#32 → exec (.loadprog b c) s = .next { s with pc := s.readReg c }

/-- LOADPROG with a live identifier (R108, R53; roles D1): segment zero becomes the segment's copy, every other segment is as
before, the Free-ID Pool is as before, `pc` is the target, and nothing else changes. -/
def Obligations.LoadprogReplacesSegmentZero : Prop :=
  ∀ (s : State) (b c : Reg), s.readReg b ≠ 0#32 → s.mem.live (s.readReg b) = true →
    ∃ t, exec (.loadprog b c) s = .next t ∧ t.pc = s.readReg c ∧
      t.mem.length 0#32 = s.mem.length (s.readReg b) ∧
      (∀ off, t.mem.word 0#32 off = s.mem.word (s.readReg b) off) ∧
      (∀ q off, q ≠ 0#32 → t.mem.word q off = s.mem.word q off) ∧
      (∀ q, q ≠ 0#32 → t.mem.length q = s.mem.length q) ∧ t.mem.freeIds = s.mem.freeIds ∧
      { t with pc := s.pc, mem := s.mem } = s

/-- LOADPROG with an identifier that is neither 0 nor live raises `SEGMENT_NOT_MAPPED` and changes no segment (R108; D1). -/
def Obligations.LoadprogOfUnmappedFaults : Prop :=
  ∀ (s : State) (b c : Reg), s.readReg b ≠ 0#32 → s.mem.live (s.readReg b) = false →
    ∃ t, exec (.loadprog b c) s = .next t ∧ Raises s t .segmentNotMapped (.ident (s.readReg b))

/-! ### Segment instructions -/

/-- SEGREAD in bounds of segment zero or of a live segment (R141, R48; roles D1). -/
def Obligations.SegreadWritesTheWord : Prop :=
  ∀ (s : State) (a b c : Reg) (n : Nat), s.mem.length (s.readReg b) = some n → (s.readReg c).toNat < n →
    ∃ t v, s.mem.word (s.readReg b) (s.readReg c) = some v ∧ exec (.segread a b c) s = .next t ∧ WritesOnly s t a v

/-- SEGWRITE in bounds (R145, R49; roles D1): every word of memory reads as before but the one at `(x[A], x[B])`, which reads
`x[C]`; no length and nothing outside the segments changes. -/
def Obligations.SegwriteStoresTheWord : Prop :=
  ∀ (s : State) (a b c : Reg) (n : Nat), s.mem.length (s.readReg a) = some n → (s.readReg b).toNat < n →
    ∃ t, exec (.segwrite a b c) s = .next t ∧
      t.mem.word (s.readReg a) (s.readReg b) = some (s.readReg c) ∧
      (∀ q off, ¬ (q = s.readReg a ∧ off = s.readReg b) → t.mem.word q off = s.mem.word q off) ∧
      (∀ q, t.mem.length q = s.mem.length q) ∧ t.mem.freeIds = s.mem.freeIds ∧ { t with mem := s.mem } = s

/-- SEGREAD and SEGWRITE fault on an identifier that is neither 0 nor live, whatever the offset, and on an offset at or beyond
the length; nothing is written or stored then (R141, R145, R48, R49, R175; roles D1, order D9). -/
def Obligations.SegmentAccessFaults : Prop :=
  ∀ (s : State) (a b c : Reg),
    (s.readReg b ≠ 0#32 → s.mem.live (s.readReg b) = false →
      ∃ t, exec (.segread a b c) s = .next t ∧ Raises s t .segmentNotMapped (.ident (s.readReg b))) ∧
    (∀ n, s.mem.length (s.readReg b) = some n → n ≤ (s.readReg c).toNat →
      ∃ t, exec (.segread a b c) s = .next t ∧
        Raises s t .segmentOffsetOutOfBounds (.identOffset (s.readReg b) (s.readReg c))) ∧
    (s.readReg a ≠ 0#32 → s.mem.live (s.readReg a) = false →
      ∃ t, exec (.segwrite a b c) s = .next t ∧ Raises s t .segmentNotMapped (.ident (s.readReg a))) ∧
    (∀ n, s.mem.length (s.readReg a) = some n → n ≤ (s.readReg b).toNat →
      ∃ t, exec (.segwrite a b c) s = .next t ∧
        Raises s t .segmentOffsetOutOfBounds (.identOffset (s.readReg a) (s.readReg b)))

/-- SEGALLOC where allocations cannot fail and an identifier is free (R149, R50; roles D1, draw D14): it completes, whatever
identifier is drawn. -/
def Obligations.SegallocAllocates : Prop :=
  ∀ (s : State) (b c : Reg), s.mem.wf → s.allocCanFail = false → s.mem.SomeFree →
    ∃ t, exec (.segalloc b c) s = .next t ∧ Allocates s t b c

/-- SEGALLOC where allocations can fail (R51, D15): it completes or raises `ALLOC_EXHAUSTED`; with no identifier free it
raises (the spec leaves that last case to the port's one remaining answer; the model's choice, log 15). -/
def Obligations.SegallocCanBeRefused : Prop :=
  ∀ (s : State) (b c : Reg), s.mem.wf → s.allocCanFail = true →
    ∃ t, exec (.segalloc b c) s = .next t ∧
      ((s.mem.SomeFree ∧ Allocates s t b c) ∨ Raises s t .allocExhausted (.size (s.readReg c))) ∧
      (¬ s.mem.SomeFree → Raises s t .allocExhausted (.size (s.readReg c)))

/-- SEGALLOC where allocations cannot fail and no identifier is free: the step is stuck (R51, D15). -/
def Obligations.SegallocStuckWhenAllLive : Prop :=
  ∀ (s : State) (b c : Reg), s.mem.wf → s.allocCanFail = false → ¬ s.mem.SomeFree →
    exec (.segalloc b c) s = .fault .allocStuck

/-- Every identifier R50 allows can be the one drawn, and no other is ever returned (R150, D14). -/
def Obligations.ExactlyFreeIdentifiersAreDrawn : Prop :=
  ∀ (m : Memory), m.wf → m.SomeFree → ∀ id : Word,
    (∃ drawn, m.chooseIdentifier drawn = id) ↔ (id ≠ 0#32 ∧ m.live id = false)

/-- SEGFREE of a live identifier (R152, R52; roles D1): it is no longer live and joins the Free-ID Pool, which keeps
its other members, every other identifier names the segment it named, and nothing else changes: the register still holds the
identifier. -/
def Obligations.SegfreeFrees : Prop :=
  ∀ (s : State) (c : Reg), s.mem.live (s.readReg c) = true →
    ∃ t, exec (.segfree c) s = .next t ∧ t.mem.live (s.readReg c) = false ∧
      (∀ i, i ∈ t.mem.freeIds ↔ i = (s.readReg c).toNat ∨ i ∈ s.mem.freeIds) ∧
      (∀ q, q ≠ s.readReg c → t.mem.segment q = s.mem.segment q) ∧
      { t with mem := s.mem } = s

/-- SEGFREE of 0 or of an identifier that is not live raises `BAD_DEALLOCATE` (R152, R52; roles D1). -/
def Obligations.SegfreeOfNonLiveFaults : Prop :=
  ∀ (s : State) (c : Reg), s.readReg c = 0#32 ∨ s.mem.live (s.readReg c) = false →
    ∃ t, exec (.segfree c) s = .next t ∧ Raises s t .badDeallocate (.ident (s.readReg c))

/-! ### The memory port -/

/-- R52: SegFree answers `BAD_DEALLOCATE` for 0 and for what is not live; else the identifier is undefined in the table and
may be drawn again. While an identifier is not live, every SegRead, SegWrite and SegLoad of it faults. -/
def Obligations.SegFreeContract : Prop :=
  ∀ (m : Memory) (id : Word),
    (id = 0#32 ∨ m.live id = false → m.segFree id = .error ⟨.badDeallocate, .ident id⟩) ∧
    (m.live id = true → ∃ m', m.segFree id = .ok m' ∧ Assoc.get id.toNat m'.table = none ∧
      m'.chooseIdentifier id = id) ∧
    (id ≠ 0#32 → m.live id = false → ∀ off v,
      m.segRead id off = .error ⟨.segmentNotMapped, .ident id⟩ ∧
      m.segWrite id off v = .error ⟨.segmentNotMapped, .ident id⟩ ∧
      m.segLoad id = .error ⟨.segmentNotMapped, .ident id⟩)

/-- R53: SegLoad of a live identifier makes segment zero a copy of the same length; the source stays live and unchanged, and
a later write to either leaves the other alone. -/
def Obligations.SegLoadMakesIndependentCopy : Prop :=
  ∀ (m : Memory) (id : Word), id ≠ 0#32 →
    (m.live id = false → m.segLoad id = .error ⟨.segmentNotMapped, .ident id⟩) ∧
    (m.live id = true → ∃ m', m.segLoad id = .ok m' ∧ m'.length 0#32 = m.length id ∧
      (∀ off, m'.word 0#32 off = m.word id off) ∧ m'.live id = true ∧ m'.segment id = m.segment id ∧
      (∀ off v m'', m'.segWrite 0#32 off v = .ok m'' → m''.segment id = m'.segment id) ∧
      (∀ off v m'', m'.segWrite id off v = .ok m'' → m''.segment 0#32 = m'.segment 0#32))

/-- R66, R50: after a SegWrite every SegRead answers as before but the one of the written word, which answers the value; after
an allocation the new segment reads 0 and every other identifier reads as before. -/
def Obligations.ReadAnswersLatestWrite : Prop :=
  ∀ (m : Memory),
    (∀ id off v m', m.segWrite id off v = .ok m' → ∀ q o,
      m'.segRead q o = if q = id ∧ o = off then .ok v else m.segRead q o) ∧
    (m.wf → ∀ canFail refuses drawn n id m', m.segAlloc canFail refuses drawn n = some (.ok (id, m')) →
      (∀ off : Word, off.toNat < n.toNat → m'.segRead id off = .ok 0#32) ∧
      (∀ q o, q ≠ id → m'.segRead q o = m.segRead q o))

/-- A size of 0 (R55, D16): the segment is live, every access to it is out of bounds, and loading it makes the next fetch
fault wherever `pc` points. -/
def Obligations.ZeroSizeSegment : Prop :=
  ∀ (m : Memory) (canFail refuses : Bool) (drawn id : Word) (m' : Memory), m.wf →
    m.segAlloc canFail refuses drawn 0#32 = some (.ok (id, m')) →
    m'.live id = true ∧ m'.length id = some 0 ∧
    (∀ off v, m'.segRead id off = .error ⟨.segmentOffsetOutOfBounds, .identOffset id off⟩ ∧
      m'.segWrite id off v = .error ⟨.segmentOffsetOutOfBounds, .identOffset id off⟩) ∧
    ∃ m'', m'.segLoad id = .ok m'' ∧ ∀ off, m''.fetch off = none

/-- Fetch is coherent with data writes (R69, R45): what SEGWRITE to identifier 0 stored, and what LOADPROG copied, is what the
very next fetch at that offset answers. -/
def Obligations.FetchSeesStoresAndLoads : Prop :=
  (∀ (s t : State) (a b c : Reg), exec (.segwrite a b c) s = .next t → s.readReg a = 0#32 →
    (s.readReg b).toNat < s.mem.seg0.len →
    ∀ off, t.mem.fetch off = if off = s.readReg b then some (s.readReg c) else s.mem.fetch off) ∧
  (∀ (s t : State) (b c : Reg), exec (.loadprog b c) s = .next t → s.mem.live (s.readReg b) = true →
    t.mem.fetch t.pc = s.mem.word (s.readReg b) (s.readReg c))

/-- The canonical form is a normal form: canonical memories whose lengths, words and Free-ID Pools agree are equal data. -/
def Obligations.CanonicalMemoriesAreEqual : Prop :=
  ∀ m m' : Memory, m.wf → m'.wf → (∀ id, m.length id = m'.length id) → (∀ id off, m.word id off = m'.word id off) →
    m.freeIds = m'.freeIds → m = m'

/-! ### Input and output -/

/-- OUT of a value of at most 255 that the host takes (R161, R163; roles D1): that byte is appended, and nothing else changes
but the model's count of what the host still takes, which is one less where there is one (log 19). -/
def Obligations.OutAppendsTheByte : Prop :=
  ∀ (s : State) (c : Reg), (s.readReg c).toNat ≤ 255 → s.outputRoom ≠ some 0 →
    ∃ t byte, exec (.out c) s = .next t ∧ byte.toNat = (s.readReg c).toNat ∧ t.output = s.output ++ [byte] ∧
      t.outputRoom = s.outputRoom.map (· - 1) ∧ { t with output := s.output, outputRoom := s.outputRoom } = s

/-- OUT of a value above 255 raises `OUTPUT_OUT_OF_RANGE` and sends nothing, even to a host that takes nothing (R161; D1). -/
def Obligations.OutOfRangeValueFaults : Prop :=
  ∀ (s : State) (c : Reg), 255 < (s.readReg c).toNat →
    ∃ t, exec (.out c) s = .next t ∧ Raises s t .outputOutOfRange (.value (s.readReg c)) ∧ t.output = s.output

/-- IN (R164, R62; role D1): the host's next answer is used up; a byte gives its value, `EOS` gives all ones; a closed stream
answers `EOS` for ever, and of a drawn answer nothing is known but that it is one of the two (D21; log 18). -/
def Obligations.InWritesTheAnswer : Prop :=
  ∀ (s : State) (c : Reg),
    (∀ byte rest, s.input = .byte byte :: rest → ∃ t, exec (.inp c) s = .next t ∧
      WritesOnly { s with input := rest } t c (BitVec.ofNat 32 byte.toNat)) ∧
    (∀ rest, s.input = .eos :: rest → ∃ t, exec (.inp c) s = .next t ∧
      WritesOnly { s with input := rest } t c 0xFFFFFFFF#32) ∧
    (s.input = [] → s.inputAfter = .endOfStream → ∃ t, exec (.inp c) s = .next t ∧ WritesOnly s t c 0xFFFFFFFF#32) ∧
    (∀ n, s.input = [] → s.inputAfter = .drawn n → ∃ t v, exec (.inp c) s = .next t ∧
      ((∃ byte : Byte, v = BitVec.ofNat 32 byte.toNat) ∨ v = 0xFFFFFFFF#32) ∧
      WritesOnly { s with inputAfter := .drawn (n + 1) } t c v)

/-- A host that never answers holds the step: IN with no answer to come, and OUT of a byte the host does not take, have no
next state (R165, R163, decision D18; the stop's form is the model's, log 18, 19). -/
def Obligations.UnansweredIoHoldsTheStep : Prop :=
  ∀ (s : State) (c : Reg),
    (s.input = [] → s.inputAfter = .noAnswer → exec (.inp c) s = .fault .inputHeld) ∧
    ((s.readReg c).toNat ≤ 255 → s.outputRoom = some 0 → exec (.out c) s = .fault .outputHeld)

/-- R63 (what OUT sends is D1's `x[C]`): the output stream is exactly the sequence of OUT bytes: a step appends one byte when
it completes an OUT, and leaves the stream alone when it does not, a faulting OUT included. -/
def Obligations.OutputIsTheSequenceOfOutBytes : Prop :=
  ∀ (s t : State), step s = .next t →
    (∀ w c, s.mem.fetch s.pc = some w → decode w = .ok (.out c) → t.run ≠ .faulted →
      ∃ byte, byte.toNat = (s.readReg c).toNat ∧ t.output = s.output ++ [byte]) ∧
    (∀ w c, s.mem.fetch s.pc = some w → decode w = .ok (.out c) → t.run = .faulted → t.output = s.output) ∧
    ((∀ w c, s.mem.fetch s.pc = some w → decode w ≠ .ok (.out c)) → t.output = s.output)

/-! ### Faults -/

/-- R173 (derived), R171: a step that faults has had no effect beyond the advance of `pc` and the record, which is charged to
the instruction at the step's own `pc` and holds its word. -/
def Obligations.FaultsArePrecise : Prop :=
  ∀ s t : State, step s = .next t → t.run = .faulted →
    { t with pc := s.pc, run := s.run, fault := s.fault } = s ∧ t.fault.faultPc = s.pc ∧
      t.fault.faultWord = s.mem.fetch s.pc ∧
      (t.fault.cause = .fetchOutOfBounds → t.pc = s.pc) ∧ (t.fault.cause ≠ .fetchOutOfBounds → t.pc = s.pc + 1#32)

/-- The fault record is written only when `FAULTED` is entered (R30, decisions D7, D8). -/
def Obligations.RecordWrittenOnlyOnFault : Prop :=
  ∀ s t : State, step s = .next t → t.run ≠ .faulted → t.fault = s.fault

/-- Each cause is raised only by its own row of R172, and `RESERVED_SEGMENT_ZERO` by none (R54, C2; codes D7). -/
def Obligations.CauseNamesItsInstruction : Prop :=
  ∀ s t : State, step s = .next t → t.run = .faulted →
    match t.fault.cause with
    | .none => False
    | .illegalOpcode => ∃ w, s.mem.fetch s.pc = some w ∧ 13 < w.toNat / 2 ^ 28
    | .fetchOutOfBounds => s.mem.seg0.len ≤ s.pc.toNat
    | .segmentOffsetOutOfBounds => ∃ w a b c, s.mem.fetch s.pc = some w ∧
        (decode w = .ok (.segread a b c) ∨ decode w = .ok (.segwrite a b c))
    | .segmentNotMapped => ∃ w a b c, s.mem.fetch s.pc = some w ∧
        (decode w = .ok (.segread a b c) ∨ decode w = .ok (.segwrite a b c) ∨
          (decode w = .ok (.loadprog b c) ∧ s.readReg b ≠ 0#32))
    | .reservedSegmentZero => False
    | .divideByZero => ∃ w a b c, s.mem.fetch s.pc = some w ∧ decode w = .ok (.div a b c)
    | .outputOutOfRange => ∃ w c, s.mem.fetch s.pc = some w ∧ decode w = .ok (.out c)
    | .badDeallocate => ∃ w c, s.mem.fetch s.pc = some w ∧ decode w = .ok (.segfree c)
    | .allocExhausted => s.allocCanFail = true ∧ ∃ w b c, s.mem.fetch s.pc = some w ∧ decode w = .ok (.segalloc b c)

/-- Where the machine has no next step, the spec says so: it has stopped, the host does not answer, or no identifier is left
(R104, R163, R165, R51). No instruction is refused. -/
def Obligations.StopsOnlyWhereSpecHasNoStep : Prop :=
  ∀ s : State, s.mem.wf →
    (∀ r, step s ≠ .refused r) ∧
    ∀ f, step s = .fault f →
      match f with
      | .halted => s.run = .halted
      | .faulted => s.run = .faulted
      | .inputHeld => s.input = [] ∧ s.inputAfter = .noAnswer ∧
          ∃ w c, s.mem.fetch s.pc = some w ∧ decode w = .ok (.inp c)
      | .outputHeld => s.outputRoom = some 0 ∧ ∃ w c, s.mem.fetch s.pc = some w ∧ decode w = .ok (.out c)
      | .allocStuck => s.allocCanFail = false ∧ ¬ s.mem.SomeFree ∧
          ∃ w b c, s.mem.fetch s.pc = some w ∧ decode w = .ok (.segalloc b c)

/-! ### Frames -/

/-- R24 (derived), R23: a register changes only when it is the instruction's one destination, and a faulting instruction writes
none. -/
def Obligations.RegisterFrame : Prop :=
  ∀ (i : Instr) (s t : State), exec i s = .next t → ∀ r,
    (destination i ≠ some r → t.readReg r = s.readReg r) ∧
    (s.run = .running → t.run = .faulted → t.readReg r = s.readReg r)

/-- EVERY WORD of memory reads as before, and every length stays, but for what the one storing form names: SEGWRITE's word, the
segment SEGALLOC returned, SEGFREE's segment, and segment zero for LOADPROG with a non-zero identifier. -/
def Obligations.MemoryFrame : Prop :=
  ∀ (i : Instr) (s t : State), exec i s = .next t → ∀ q off : Word,
    (match i with
      | .segwrite a b _ => ¬ (q = s.readReg a ∧ off = s.readReg b)
      | .segalloc b _ => q ≠ t.readReg b
      | .segfree c => q ≠ s.readReg c
      | .loadprog b _ => ¬ (q = 0#32 ∧ s.readReg b ≠ 0#32)
      | _ => True) →
    t.mem.word q off = s.mem.word q off ∧ t.mem.length q = s.mem.length q

/-- Whatever an instruction does, it leaves the host's side, the parameters and the Free-ID Pool alone but for its own use of
them: `ALLOC_CAN_FAIL` never changes, only SEGALLOC draws an identifier, only SEGALLOC and SEGFREE touch the pool, only OUT
sends, and only IN uses an answer up: the next listed one, or, with none listed, one drawn answer where the host draws
(R35, R61, R65; log 12, 13, 18). -/
def Obligations.EnvironmentFrame : Prop :=
  ∀ (i : Instr) (s t : State), exec i s = .next t →
    t.allocCanFail = s.allocCanFail ∧
    ((∀ b c, i ≠ .segalloc b c) → (∀ c, i ≠ .segfree c) → t.mem.freeIds = s.mem.freeIds) ∧
    ((∀ b c, i ≠ .segalloc b c) → t.draws = s.draws) ∧
    ((∀ c, i ≠ .out c) → t.output = s.output ∧ t.outputRoom = s.outputRoom) ∧
    ((∀ c, i ≠ .inp c) → t.input = s.input ∧ t.inputAfter = s.inputAfter) ∧
    (∀ c, i = .inp c → t.input = s.input.tail ∧
      t.inputAfter = (match s.input, s.inputAfter with
        | [], .drawn n => .drawn (n + 1)
        | _, a => a))

/-! ### Reset, images and the invariant -/

/-- The machine after reset (R36, R200): registers and `pc` 0 (spec decisions D2, D3, from general knowledge; log 2, 3),
`RUNNING`, no fault, no identifier live or freed. -/
def Obligations.ResetState : Prop :=
  (∀ r, State.reset.readReg r = 0#32) ∧ State.reset.pc = 0#32 ∧ State.reset.run = .running ∧
    State.reset.fault.cause = .none ∧ (∀ id, State.reset.mem.live id = false) ∧ State.reset.mem.freeIds = [] ∧
    State.reset.output = []

/-- R56: the image is big-endian, four bytes a word, in order; the segment is exactly as long as the image. Which images
`State.boot` takes is stated by `Obligations.BootedMachine`. -/
def Obligations.ImageIsBigEndian : Prop :=
  ∀ (image : List Byte) (s : State), State.boot image = some s →
    4 * s.mem.seg0.len = image.length ∧
    ∀ k b0 b1 b2 b3, image[4 * k]? = some b0 → image[4 * k + 1]? = some b1 → image[4 * k + 2]? = some b2 →
      image[4 * k + 3]? = some b3 → s.mem.seg0.read k = some (b0 ++ b1 ++ b2 ++ b3)

/-- An image boots exactly when it is of whole words, fewer than 2^32 of them (R201, D20; log 21). A booted machine meets the
invariant, runs from offset 0, and has a word to fetch exactly below its image's length; an empty image makes the first step
fault with `fault_pc = 0` (R202, derived; D3). -/
def Obligations.BootedMachine : Prop :=
  ∀ image : List Byte,
    ((∃ s, State.boot image = some s) ↔ image.length % 4 = 0 ∧ image.length / 4 < 2 ^ 32) ∧
    ∀ s, State.boot image = some s → s.Inv ∧ s.pc = 0#32 ∧ s.run = .running ∧
      (∀ off, (s.mem.fetch off).isSome ↔ 4 * off.toNat < image.length) ∧
      (image = [] → ∃ t, step s = .next t ∧ TakesFault s t 0#32 none .fetchOutOfBounds (.offset 0#32))

/-- The reset state meets the invariant. -/
def Obligations.ResetMeetsInvariant : Prop := State.reset.Inv

/-- HEADLINE: every step keeps the invariant: the memory canonical, identifier 0 never in the table, every length below 2^32
(R46, R47), no freed identifier live, and the fault record agreeing with the run state, `pc` and segment zero (R29, R30, R171). -/
def Obligations.StepKeepsInvariant : Prop := ∀ s t : State, s.Inv → step s = .next t → t.Inv

/-! ### Idioms -/

/-- The idioms of R93 (derived) compute what they stand for, whichever registers coincide, under R93's conditions on the
temporaries; JMP needs its Z distinct from its target register too (DEDUCED; log 26). Run one after another, each after its
advance, they end without a fault and change only registers and `pc`. -/
def Obligations.IdiomsCompute : Prop :=
  ∀ (s : State) (a b c p q : Reg),
    (∃ t, execList (idiomNop a b) s = .next t ∧ { t with pc := s.pc } = s) ∧
    (∃ t, execList (idiomNot a b) s = .next t ∧ WritesOnly { s with pc := t.pc } t a (~~~(s.readReg b))) ∧
    (∃ t, execList (idiomAnd a b c) s = .next t ∧
      WritesOnly { s with pc := t.pc } t a (s.readReg b &&& s.readReg c)) ∧
    (p ≠ b → ∃ t, execList (idiomMov p a b) s = .next t ∧ t.readReg a = s.readReg b ∧
      (∀ r, r ≠ a → r ≠ p → t.readReg r = s.readReg r) ∧ { t with pc := s.pc, regs := s.regs } = s) ∧
    (p ≠ a → ∃ t, execList (idiomNeg p a b) s = .next t ∧
      (t.readReg a).toNat = (2 ^ 32 - (s.readReg b).toNat) % 2 ^ 32 ∧
      (∀ r, r ≠ a → r ≠ p → t.readReg r = s.readReg r) ∧ { t with pc := s.pc, regs := s.regs } = s) ∧
    (q ≠ p → p ≠ b → q ≠ b → ∃ t, execList (idiomSub p q a b c) s = .next t ∧
      t.readReg a = s.readReg b - s.readReg c ∧
      (∀ r, r ≠ a → r ≠ p → r ≠ q → t.readReg r = s.readReg r) ∧ { t with pc := s.pc, regs := s.regs } = s) ∧
    (p ≠ c → ∃ t, execList (idiomJmp p c) s = .next t ∧ t.pc = s.readReg c ∧
      (∀ r, r ≠ p → t.readReg r = s.readReg r) ∧ { t with pc := s.pc, regs := s.regs } = s)
end

