-- ==== Sys2Proof/Laws/Assoc.lean ====
section
/-! SUPPORT. The laws of the finite maps of Machine/Assoc.lean: read after write, the canonical form, and equality. -/

namespace Sys2Proof.Machine

variable {β : Type}

@[simp] theorem Assoc.get_nil (k : Nat) : Assoc.get k ([] : List (Nat × β)) = none := rfl

theorem Assoc.get_cons (k : Nat) (e : Nat × β) (m : List (Nat × β)) :
    Assoc.get k (e :: m) = if k = e.1 then some e.2 else Assoc.get k m := rfl

theorem Assoc.get_append (k : Nat) (a b : List (Nat × β)) :
    Assoc.get k (a ++ b) = (Assoc.get k a).or (Assoc.get k b) := by
  induction a with
  | nil => simp
  | cons e m ih => simp only [List.cons_append, Assoc.get_cons, ih]; split <;> simp

/-- Filtering by a test of the key keeps exactly the entries of the keys that pass. -/
theorem Assoc.get_filter (k : Nat) (p : Nat → Bool) (m : List (Nat × β)) :
    Assoc.get k (m.filter (fun e => p e.1)) = if p k then Assoc.get k m else none := by
  induction m with
  | nil => simp
  | cons e m ih =>
    rw [List.filter_cons]
    by_cases hk : k = e.1
    · subst hk
      by_cases hp : p e.1 = true
      · simp [hp, Assoc.get_cons]
      · simp [hp, ih]
    · by_cases hp : p e.1 = true
      · simp [hp, Assoc.get_cons, hk, ih]
      · simp [hp, Assoc.get_cons, hk, ih]

/-- What any key reads after one is set. -/
theorem Assoc.get_put (k q : Nat) (v : β) (m : List (Nat × β)) :
    Assoc.get q (Assoc.put k v m) = if q = k then some v else Assoc.get q m := by
  have hlt := Assoc.get_filter q (fun i => decide (i < k)) m
  have hgt := Assoc.get_filter q (fun i => decide (k < i)) m
  simp only [Assoc.put, Assoc.get_append, Assoc.get_cons, hlt, hgt, decide_eq_true_eq]
  rcases Nat.lt_trichotomy q k with h | h | h
  · simp [h, Nat.ne_of_lt h, Nat.not_lt_of_lt h]
  · simp [h]
  · simp [h, Nat.ne_of_gt h, Nat.not_lt_of_lt h]

/-- What any key reads after one is removed. -/
theorem Assoc.get_del (k q : Nat) (m : List (Nat × β)) :
    Assoc.get q (Assoc.del k m) = if q = k then none else Assoc.get q m := by
  have h := Assoc.get_filter q (fun i => decide (i ≠ k)) m
  simp only [Assoc.del, h, decide_eq_true_eq]
  by_cases hq : q = k <;> simp [hq]

theorem Assoc.mem_of_get {k : Nat} {v : β} {m : List (Nat × β)} (h : Assoc.get k m = some v) : (k, v) ∈ m := by
  induction m with
  | nil => simp at h
  | cons e m ih =>
    rw [Assoc.get_cons] at h
    split at h
    · next hk => cases h; subst hk; exact List.mem_cons_self
    · exact List.mem_cons_of_mem _ (ih h)

theorem Assoc.get_eq_none {k : Nat} {m : List (Nat × β)} : Assoc.get k m = none ↔ k ∉ Assoc.keys m := by
  induction m with
  | nil => simp [Assoc.keys]
  | cons e m ih =>
    rw [Assoc.get_cons]
    split
    · next hk => simp [Assoc.keys, hk]
    · next hk => simp only [ih, Assoc.keys, List.map_cons, List.mem_cons, not_or]; exact ⟨fun h => ⟨hk, h⟩, fun h => h.2⟩

/-- In a canonical map, a listed entry is what its key reads. -/
theorem Assoc.get_of_mem {e : Nat × β} {m : List (Nat × β)} (hr : Assoc.Rising m) (h : e ∈ m) :
    Assoc.get e.1 m = some e.2 := by
  induction m with
  | nil => cases h
  | cons f m ih =>
    have hr' := List.pairwise_cons.mp (show (f.1 :: Assoc.keys m).Pairwise (· < ·) from hr)
    rcases List.mem_cons.mp h with rfl | h
    · simp [Assoc.get_cons]
    · have hlt := hr'.1 e.1 (List.mem_map_of_mem h)
      rw [Assoc.get_cons, if_neg (Nat.ne_of_gt hlt)]
      exact ih hr'.2 h

theorem Assoc.rising_filter {m : List (Nat × β)} (p : Nat × β → Bool) (h : Assoc.Rising m) :
    Assoc.Rising (m.filter p) :=
  List.Pairwise.sublist (List.Sublist.map _ List.filter_sublist) h

/-- Removing a key keeps the canonical form. -/
theorem Assoc.rising_del {m : List (Nat × β)} (k : Nat) (h : Assoc.Rising m) : Assoc.Rising (Assoc.del k m) :=
  Assoc.rising_filter _ h

/-- Setting a key keeps the canonical form. -/
theorem Assoc.rising_put {m : List (Nat × β)} (k : Nat) (v : β) (h : Assoc.Rising m) :
    Assoc.Rising (Assoc.put k v m) := by
  simp only [Assoc.put, Assoc.Rising, Assoc.keys, List.map_append, List.map_cons, List.pairwise_append,
    List.pairwise_cons]
  refine ⟨Assoc.rising_filter _ h, ⟨?_, Assoc.rising_filter _ h⟩, ?_⟩
  · intro i hi
    obtain ⟨e, he, rfl⟩ := List.mem_map.mp hi
    simpa using (List.mem_filter.mp he).2
  · intro i hi j hj
    obtain ⟨e, he, rfl⟩ := List.mem_map.mp hi
    have hik : e.1 < k := by simpa using (List.mem_filter.mp he).2
    rcases List.mem_cons.mp hj with rfl | hj
    · exact hik
    · obtain ⟨f, hf, rfl⟩ := List.mem_map.mp hj
      have hkj : k < f.1 := by simpa using (List.mem_filter.mp hf).2
      exact Nat.lt_trans hik hkj

theorem Assoc.mem_put {k : Nat} {v : β} {m : List (Nat × β)} {e : Nat × β} (h : e ∈ Assoc.put k v m) :
    e = (k, v) ∨ e ∈ m := by
  simp only [Assoc.put, List.mem_append, List.mem_cons] at h
  rcases h with h | h | h
  · exact .inr (List.mem_filter.mp h).1
  · exact .inl h
  · exact .inr (List.mem_filter.mp h).1

theorem Assoc.mem_del {k : Nat} {m : List (Nat × β)} {e : Nat × β} (h : e ∈ Assoc.del k m) : e ∈ m ∧ e.1 ≠ k := by
  have h' := List.mem_filter.mp h
  exact ⟨h'.1, by simpa using h'.2⟩

/-- Canonical maps that read alike are equal data. -/
theorem Assoc.ext_of_get {a b : List (Nat × β)} (ha : Assoc.Rising a) (hb : Assoc.Rising b)
    (h : ∀ k, Assoc.get k a = Assoc.get k b) : a = b := by
  induction a generalizing b with
  | nil =>
    cases b with
    | nil => rfl
    | cons f b => exact absurd (h f.1) (by simp [Assoc.get_cons])
  | cons e a ih =>
    cases b with
    | nil => exact absurd (h e.1) (by simp [Assoc.get_cons])
    | cons f b =>
      have ha' := List.pairwise_cons.mp (show (e.1 :: Assoc.keys a).Pairwise (· < ·) from ha)
      have hb' := List.pairwise_cons.mp (show (f.1 :: Assoc.keys b).Pairwise (· < ·) from hb)
      have below : ∀ {k : Nat} {m : List (Nat × β)}, (∀ i ∈ Assoc.keys m, k < i) → Assoc.get k m = none :=
        fun hm => Assoc.get_eq_none.mpr (fun hk => Nat.lt_irrefl _ (hm _ hk))
      have hef : e.1 = f.1 := by
        rcases Nat.lt_trichotomy e.1 f.1 with hlt | heq | hlt
        · have hx := h e.1
          rw [Assoc.get_cons, if_pos rfl, Assoc.get_cons, if_neg (Nat.ne_of_lt hlt),
            below (fun i hi => Nat.lt_trans hlt (hb'.1 i hi))] at hx
          cases hx
        · exact heq
        · have hx := h f.1
          rw [Assoc.get_cons, if_neg (Nat.ne_of_lt hlt), Assoc.get_cons, if_pos rfl,
            below (fun i hi => Nat.lt_trans hlt (ha'.1 i hi))] at hx
          cases hx
      have hval : e = f := by
        have hx := h e.1
        rw [Assoc.get_cons, if_pos rfl, Assoc.get_cons, if_pos hef] at hx
        exact Prod.ext hef (Option.some.inj hx)
      subst hval
      congr 1
      refine ih ha'.2 hb'.2 (fun k => ?_)
      by_cases hk : k = e.1
      · rw [hk, below ha'.1, below hb'.1]
      · have hx := h k
        rwa [Assoc.get_cons, if_neg hk, Assoc.get_cons, if_neg hk] at hx

end Sys2Proof.Machine
end

