-- ==== Sys2Proof/Laws/Decode.lean ====
section
/-! SUPPORT. The laws of the encoder and the decoder: what each slice of an encoded word is, and what the decoder answers
for each opcode. -/

namespace Sys2Proof

/-! ### Slices -/

theorem slice_or (a b : Word) (lo n : Nat) : slice (a ||| b) lo n = slice a lo n ||| slice b lo n := by
  apply BitVec.eq_of_getLsbD_eq
  intro i hi
  simp [slice, hi]

/-- The fields below bit 28 of an opcode are 0. -/
theorem slice_placeOp_below (op lo n : Nat) (h : lo + n ≤ 28) : slice (placeOp op) lo n = 0#n := by
  apply BitVec.eq_of_getLsbD_eq
  intro i hi
  have h' : lo + i < 28 := by omega
  simp [slice, placeOp, h']

/-- The fields below a register field are 0. -/
theorem slice_placeReg_below (r : Reg) (at_ lo n : Nat) (h : lo + n ≤ at_) : slice (placeReg r at_) lo n = 0#n := by
  apply BitVec.eq_of_getLsbD_eq
  intro i hi
  have h' : lo + i < at_ := by omega
  simp [slice, placeReg, h']

/-- The fields above a word of fewer bits are 0. -/
theorem slice_above (w : Word) (k lo n : Nat) (hw : w.toNat < 2 ^ k) (h : k ≤ lo) : slice w lo n = 0#n := by
  apply BitVec.eq_of_toNat_eq
  have hlt : w.toNat < 2 ^ lo := Nat.lt_of_lt_of_le hw (Nat.pow_le_pow_right (by decide) h)
  simp [slice, Nat.shiftRight_eq_div_pow, Nat.div_eq_of_lt hlt]

theorem placeReg_lt : ∀ r : Reg, (placeReg r 0).toNat < 2 ^ 3 ∧ (placeReg r 3).toNat < 2 ^ 6 ∧
    (placeReg r 6).toNat < 2 ^ 9 ∧ (placeReg r 25).toNat < 2 ^ 28 := by decide

theorem slice_placeReg_same : ∀ r : Reg,
    slice (placeReg r 0) 0 3 = BitVec.ofNat 3 r.val ∧ slice (placeReg r 3) 3 3 = BitVec.ofNat 3 r.val ∧
    slice (placeReg r 6) 6 3 = BitVec.ofNat 3 r.val ∧ slice (placeReg r 25) 25 3 = BitVec.ofNat 3 r.val := by decide

theorem regField_of_slice {w : Word} {lo : Nat} {r : Reg} (h : slice w lo 3 = BitVec.ofNat 3 r.val) :
    regField w lo = r := by
  apply Fin.ext
  simp [regField, h]

/-! ### The slices of the canonical encodings (R91) -/

theorem fields_enc3_c (op : Nat) (a b c : Reg) : (fields (enc3 op a b c)).c = c := by
  apply regField_of_slice
  simp [enc3, slice_or, slice_placeOp_below, slice_placeReg_below, (slice_placeReg_same c).1]

theorem fields_enc3_b (op : Nat) (a b c : Reg) : (fields (enc3 op a b c)).b = b := by
  apply regField_of_slice
  simp [enc3, slice_or, slice_placeOp_below, slice_placeReg_below, (slice_placeReg_same b).2.1,
    slice_above _ 3 3 3 (placeReg_lt c).1]

theorem fields_enc3_a (op : Nat) (a b c : Reg) : (fields (enc3 op a b c)).a = a := by
  apply regField_of_slice
  simp [enc3, slice_or, slice_placeOp_below, (slice_placeReg_same a).2.2.1,
    slice_above _ 3 6 3 (placeReg_lt c).1, slice_above _ 6 6 3 (placeReg_lt b).2.1]

theorem fields_enc3_op (op : Nat) (a b c : Reg) : (fields (enc3 op a b c)).op = slice (placeOp op) 28 4 := by
  show slice _ 28 4 = _
  simp [enc3, slice_or, slice_above _ 3 28 4 (placeReg_lt c).1, slice_above _ 6 28 4 (placeReg_lt b).2.1,
    slice_above _ 9 28 4 (placeReg_lt a).2.2.1]

theorem immediateFits_lt {imm : Word} (h : immediateFits imm) : imm.toNat < 2 ^ 25 := Nat.lt_succ_of_le h

theorem fields_encLI_la (la : Reg) {imm : Word} (h : immediateFits imm) : (fields (encLI la imm)).la = la := by
  apply regField_of_slice
  simp [encLI, slice_or, slice_placeOp_below, (slice_placeReg_same la).2.2.2,
    slice_above _ 25 25 3 (immediateFits_lt h)]

theorem fields_encLI_op (la : Reg) {imm : Word} (h : immediateFits imm) :
    (fields (encLI la imm)).op = slice (placeOp 13) 28 4 := by
  show slice _ 28 4 = _
  simp [encLI, slice_or, slice_above _ 28 28 4 (placeReg_lt la).2.2.2, slice_above _ 25 28 4 (immediateFits_lt h)]

/-- An immediate that fits its field is its own zero-extended field (R84). -/
theorem immField_of_fits {imm : Word} (h : immediateFits imm) : immField imm = imm := by
  apply BitVec.eq_of_toNat_eq
  have hlt := immediateFits_lt h
  simp [immField, slice]
  omega

theorem fields_encLI_imm (la : Reg) {imm : Word} (h : immediateFits imm) : (fields (encLI la imm)).imm = imm := by
  show (slice _ 0 25).setWidth 32 = imm
  simp only [encLI, slice_or, slice_placeOp_below 13 0 25 (by decide), slice_placeReg_below la 25 0 25 (by decide),
    BitVec.zero_or]
  exact immField_of_fits h

/-! ### The decoder -/

/-- The immediate the decoder gives always fits its field (R84). -/
theorem immediateFits_immField (w : Word) : immediateFits (immField w) := by
  have h := (slice w 0 25).isLt
  simp only [immediateFits, immField, BitVec.toNat_setWidth]
  omega

/-- The decoder is its slices' selection. -/
theorem decode_of_op {w : Word} {n : Nat} (h : (fields w).op.toNat = n) : decode w = (fields w).selectAt n := by
  rw [decode, h]

/-- Everything the decoder can answer: an opcode of at most 13 gives an instruction, any other is rejected by name
(R81, R88, R90). -/
theorem decode_cases (w : Word) :
    (∃ i, decode w = .ok i ∧ (fields w).op.toNat ≤ 13) ∨
    (decode w = .error (.illegalOpcode (fields w).op) ∧ 13 < (fields w).op.toNat) := by
  have hlt : (fields w).op.toNat < 16 := (fields w).op.isLt
  generalize hn : (fields w).op.toNat = n at hlt
  have hd := decode_of_op hn
  interval_cases n <;> first
    | exact .inl ⟨_, hd, by decide⟩
    | exact .inr ⟨hd, by decide⟩

end Sys2Proof
end

