-- ==== Sys2Proof/Laws/Mem.lean ====
section
/-! SUPPORT. The laws of segments and of the memory: what each transaction answers, what every word reads afterwards, and
that the canonical form is kept. -/

namespace Sys2Proof.Machine

/-! ### Words as keys -/

theorem Word.toNat_ne {a b : Word} (h : a ≠ b) : a.toNat ≠ b.toNat := fun e => h (BitVec.eq_of_toNat_eq e)

theorem Word.toNat_pos {a : Word} (h : a ≠ 0#32) : 0 < a.toNat := by
  have := Word.toNat_ne h
  simp at this
  omega

/-! ### One segment -/

@[simp] theorem Segment.write_len (g : Segment) (off : Nat) (v : Word) : (g.write off v).len = g.len := rfl

@[simp] theorem Segment.zeros_len (n : Nat) : (Segment.zeros n).len = n := rfl

theorem Segment.read_eq_none {g : Segment} {off : Nat} : g.read off = none ↔ g.len ≤ off := by
  unfold Segment.read
  split <;> simp <;> omega

theorem Segment.read_isSome {g : Segment} {off : Nat} : (g.read off).isSome ↔ off < g.len := by
  unfold Segment.read
  split <;> simp_all

/-- What any offset in bounds reads after a write (R49). -/
theorem Segment.read_write (g : Segment) (off q : Nat) (v : Word) (h : off < g.len) :
    (g.write off v).read q = if q = off then some v else g.read q := by
  unfold Segment.read Segment.write
  by_cases hv : v = 0#32
  · subst hv
    simp only [if_true, Assoc.get_del]
    by_cases hq : q = off
    · subst hq; simp [h]
    · simp [hq]
  · simp only [if_neg hv, Assoc.get_put]
    by_cases hq : q = off
    · subst hq; simp [h]
    · simp [hq]

/-- A new segment reads 0 at every offset below its length (R50). -/
theorem Segment.read_zeros (n off : Nat) : (Segment.zeros n).read off = if off < n then some 0#32 else none := rfl

theorem Segment.wf_zeros {n : Nat} (h : n < 2 ^ 32) : (Segment.zeros n).wf :=
  ⟨List.Pairwise.nil, fun _ hc => absurd hc List.not_mem_nil, h⟩

/-- A write in bounds keeps the canonical form. -/
theorem Segment.wf_write {g : Segment} {off : Nat} (v : Word) (hg : g.wf) (h : off < g.len) : (g.write off v).wf := by
  obtain ⟨hr, hc, hl⟩ := hg
  unfold Segment.write
  split
  · exact ⟨Assoc.rising_del _ hr, fun c hm => hc c (Assoc.mem_del hm).1, hl⟩
  · next hv =>
    refine ⟨Assoc.rising_put _ _ hr, fun c hm => ?_, hl⟩
    rcases Assoc.mem_put hm with rfl | hm
    · exact ⟨h, hv⟩
    · exact hc c hm

/-- Canonical segments of one length that read alike are equal data. -/
theorem Segment.ext_of_read {a b : Segment} (ha : a.wf) (hb : b.wf) (hl : a.len = b.len)
    (h : ∀ off, a.read off = b.read off) : a = b := by
  obtain ⟨al, ac⟩ := a
  obtain ⟨bl, bc⟩ := b
  cases hl
  congr 1
  have listed : ∀ {c : List (Nat × Word)} {k : Nat}, Segment.wf ⟨al, c⟩ → ∀ v, Assoc.get k c = some v → k < al ∧ v ≠ 0#32 :=
    fun hw v hv => hw.2.1 _ (Assoc.mem_of_get hv)
  refine Assoc.ext_of_get ha.1 hb.1 (fun k => ?_)
  have hk := h k
  simp only [Segment.read] at hk
  cases hga : Assoc.get k ac with
  | none =>
    cases hgb : Assoc.get k bc with
    | none => rfl
    | some v => simp [hga, hgb, (listed hb v hgb).1] at hk; exact absurd hk.symm (listed hb v hgb).2
  | some u =>
    cases hgb : Assoc.get k bc with
    | none => simp [hga, hgb, (listed ha u hga).1] at hk; exact absurd hk (listed ha u hga).2
    | some v => simp [hga, hgb, (listed ha u hga).1] at hk; rw [hk]

/-- The cells of a list of words read back as the words. -/
theorem Segment.get_cellsFrom (ws : List Word) (k off : Nat) :
    (Assoc.get off (Segment.cellsFrom k ws)).getD 0#32 = if k ≤ off then (ws[off - k]?).getD 0#32 else 0#32 := by
  induction ws generalizing k with
  | nil => simp [Segment.cellsFrom]
  | cons w ws ih =>
    rw [Segment.cellsFrom]
    rcases Nat.lt_trichotomy off k with h | h | h
    · have h0 : ¬ k ≤ off := by omega
      have h1 : ¬ k + 1 ≤ off := by omega
      split <;> simp [Assoc.get_cons, Nat.ne_of_lt h, ih, h1]
    · subst h
      split <;> simp_all [Assoc.get_cons]
    · have h0 : k ≤ off := by omega
      have h1 : k + 1 ≤ off := by omega
      have h2 : off - k = (off - (k + 1)) + 1 := by omega
      split <;> simp [Assoc.get_cons, Nat.ne_of_gt h, ih, h1, h2]

/-- A segment made of listed words reads them back, and nothing beyond them. -/
theorem Segment.read_ofWords (ws : List Word) (off : Nat) : (Segment.ofWords ws).read off = ws[off]? := by
  simp only [Segment.read, Segment.ofWords, Segment.get_cellsFrom, Nat.zero_le, if_true, Nat.sub_zero]
  split
  · next h => simp [h]
  · next h => simp [Nat.le_of_not_lt h]

theorem Segment.mem_cellsFrom {ws : List Word} {k : Nat} {c : Nat × Word} (h : c ∈ Segment.cellsFrom k ws) :
    k ≤ c.1 ∧ c.1 < k + ws.length ∧ c.2 ≠ 0#32 := by
  induction ws generalizing k with
  | nil => simp [Segment.cellsFrom] at h
  | cons w ws ih =>
    rw [Segment.cellsFrom] at h
    simp only [List.length_cons]
    split at h
    · obtain ⟨h1, h2, h3⟩ := ih h; exact ⟨by omega, by omega, h3⟩
    · next hw =>
      rcases List.mem_cons.mp h with rfl | h
      · exact ⟨Nat.le_refl _, by simp, hw⟩
      · obtain ⟨h1, h2, h3⟩ := ih h; exact ⟨by omega, by omega, h3⟩

theorem Segment.rising_cellsFrom (ws : List Word) (k : Nat) : Assoc.Rising (Segment.cellsFrom k ws) := by
  induction ws generalizing k with
  | nil => exact List.Pairwise.nil
  | cons w ws ih =>
    rw [Segment.cellsFrom]
    split
    · exact ih _
    · refine List.pairwise_cons.mpr ⟨fun i hi => ?_, ih _⟩
      obtain ⟨c, hc, rfl⟩ := List.mem_map.mp hi
      exact (Segment.mem_cellsFrom hc).1

theorem Segment.wf_ofWords {ws : List Word} (h : ws.length < 2 ^ 32) : (Segment.ofWords ws).wf :=
  ⟨Segment.rising_cellsFrom ws 0, fun c hc => by
    have := Segment.mem_cellsFrom hc
    exact ⟨by simpa [Segment.ofWords] using this.2.1, this.2.2⟩, h⟩

/-! ### Looking a segment up -/

@[simp] theorem Memory.segment_zero (m : Memory) : m.segment 0#32 = some m.seg0 := rfl

theorem Memory.segment_of_ne (m : Memory) {id : Word} (h : id ≠ 0#32) : m.segment id = Assoc.get id.toNat m.table := by
  simp [Memory.segment, h]

/-- An identifier names a segment exactly when it is 0 or live (R47, R48). -/
theorem Memory.segment_isSome (m : Memory) (id : Word) : (m.segment id).isSome = true ↔ id = 0#32 ∨ m.live id = true := by
  by_cases h : id = 0#32
  · subst h; simp
  · simp [Memory.segment, Memory.live, h]

theorem Memory.segment_eq_none (m : Memory) (id : Word) : m.segment id = none ↔ id ≠ 0#32 ∧ m.live id = false := by
  by_cases h : id = 0#32
  · subst h; simp
  · simp [Memory.segment, Memory.live, h]

theorem Memory.word_of_segment {m : Memory} {id : Word} {g : Segment} (h : m.segment id = some g) (off : Word) :
    m.word id off = g.read off.toNat := by
  simp [Memory.word, h]

/-- A fetch is a read of segment zero (R44). -/
theorem Memory.fetch_eq_word (m : Memory) (off : Word) : m.fetch off = m.word 0#32 off := rfl

/-- Which segment any identifier names after one is replaced. -/
theorem Memory.segment_setSegment (m : Memory) (id q : Word) (g : Segment) :
    (m.setSegment id g).segment q = if q = id then some g else m.segment q := by
  unfold Memory.setSegment
  by_cases hid : id = 0#32
  · subst hid
    by_cases hq : q = 0#32 <;> simp [hq, Memory.segment]
  · by_cases hq : q = 0#32
    · subst hq; simp [hid, Ne.symm hid]
    · simp only [hid, if_false, Memory.segment, hq, Assoc.get_put]
      by_cases hqi : q = id
      · simp [hqi]
      · simp [hqi, Word.toNat_ne hqi]

/-- Replacing a segment that an identifier names, by a canonical one, keeps the canonical form. -/
theorem Memory.wf_setSegment {m : Memory} {id : Word} {g g' : Segment} (hm : m.wf) (hs : m.segment id = some g)
    (hg : g'.wf) : (m.setSegment id g').wf := by
  obtain ⟨h0, hr, ht, hp, hf⟩ := hm
  unfold Memory.setSegment
  split
  · exact ⟨hg, hr, ht, hp, hf⟩
  · next hid =>
    rw [Memory.segment_of_ne m hid] at hs
    refine ⟨h0, Assoc.rising_put _ _ hr, fun e he => ?_, hp, fun i hi => ?_⟩
    · rcases Assoc.mem_put he with rfl | he
      · exact ⟨Word.toNat_pos hid, id.isLt, hg⟩
      · exact ht e he
    · refine ⟨(hf i hi).1, (hf i hi).2.1, ?_⟩
      simp only [Assoc.get_put]
      have hne : i ≠ id.toNat := fun e => by rw [← e, (hf i hi).2.2] at hs; cases hs
      simp [hne, (hf i hi).2.2]

theorem Memory.segment_wf {m : Memory} {id : Word} {g : Segment} (hm : m.wf) (hs : m.segment id = some g) : g.wf := by
  unfold Memory.segment at hs
  split at hs
  · cases hs; exact hm.1
  · exact (hm.2.2.1 _ (Assoc.mem_of_get hs)).2.2

/-! ### SegRead and SegWrite (R48, R49) -/

/-- Everything `SegRead` can answer. -/
theorem Memory.segRead_spec (m : Memory) (id off : Word) :
    (m.segment id = none ∧ m.segRead id off = .error ⟨.segmentNotMapped, .ident id⟩) ∨
    (∃ g, m.segment id = some g ∧ g.len ≤ off.toNat ∧
      m.segRead id off = .error ⟨.segmentOffsetOutOfBounds, .identOffset id off⟩) ∨
    (∃ w, m.word id off = some w ∧ m.segRead id off = .ok w) := by
  unfold Memory.segRead
  cases hs : m.segment id with
  | none => exact .inl ⟨rfl, rfl⟩
  | some g =>
    cases hw : g.read off.toNat with
    | none => exact .inr (.inl ⟨g, rfl, Segment.read_eq_none.mp hw, by simp [hw]⟩)
    | some w => exact .inr (.inr ⟨w, by rw [Memory.word_of_segment hs, hw], by simp [hw]⟩)

theorem Memory.segRead_of_word {m : Memory} {id off w : Word} (h : m.word id off = some w) : m.segRead id off = .ok w := by
  unfold Memory.segRead
  unfold Memory.word at h
  cases hs : m.segment id with
  | none => simp [hs] at h
  | some g => simp [hs] at h; simp [h]

theorem Memory.segRead_of_unmapped {m : Memory} {id : Word} (off : Word) (h : m.segment id = none) :
    m.segRead id off = .error ⟨.segmentNotMapped, .ident id⟩ := by
  simp [Memory.segRead, h]

theorem Memory.segRead_of_beyond {m : Memory} {id off : Word} {g : Segment} (h : m.segment id = some g)
    (ho : g.len ≤ off.toNat) : m.segRead id off = .error ⟨.segmentOffsetOutOfBounds, .identOffset id off⟩ := by
  simp [Memory.segRead, h, Segment.read_eq_none.mpr ho]

/-- Everything `SegWrite` can answer. -/
theorem Memory.segWrite_spec (m : Memory) (id off v : Word) :
    (m.segment id = none ∧ m.segWrite id off v = .error ⟨.segmentNotMapped, .ident id⟩) ∨
    (∃ g, m.segment id = some g ∧ g.len ≤ off.toNat ∧
      m.segWrite id off v = .error ⟨.segmentOffsetOutOfBounds, .identOffset id off⟩) ∨
    (∃ g, m.segment id = some g ∧ off.toNat < g.len ∧
      m.segWrite id off v = .ok (m.setSegment id (g.write off.toNat v))) := by
  unfold Memory.segWrite
  cases hs : m.segment id with
  | none => exact .inl ⟨rfl, rfl⟩
  | some g =>
    cases hw : g.read off.toNat with
    | none => exact .inr (.inl ⟨g, rfl, Segment.read_eq_none.mp hw, by simp [hw]⟩)
    | some w =>
      have hlt : off.toNat < g.len := Segment.read_isSome.mp (by simp [hw])
      exact .inr (.inr ⟨g, rfl, hlt, by simp [hw]⟩)

/-- A `SegWrite` that is answered: every word reads as before but the one written (R49, R66). -/
theorem Memory.word_segWrite {m m' : Memory} {id off v : Word} (h : m.segWrite id off v = .ok m') (q o : Word) :
    m'.word q o = if q = id ∧ o = off then some v else m.word q o := by
  rcases Memory.segWrite_spec m id off v with ⟨_, he⟩ | ⟨g, _, _, he⟩ | ⟨g, hs, hlt, hok⟩
  · simp [he] at h
  · simp [he] at h
  · rw [hok] at h
    cases h
    simp only [Memory.word, Memory.segment_setSegment]
    by_cases hq : q = id
    · subst hq
      simp only [if_true, Option.bind_some, hs, Segment.read_write _ _ _ _ hlt, true_and]
      by_cases ho : o = off
      · simp [ho]
      · simp [ho, Word.toNat_ne ho]
    · simp [hq]

/-- A `SegWrite` changes no length (R146). -/
theorem Memory.length_segWrite {m m' : Memory} {id off v : Word} (h : m.segWrite id off v = .ok m') (q : Word) :
    m'.length q = m.length q := by
  rcases Memory.segWrite_spec m id off v with ⟨_, he⟩ | ⟨g, _, _, he⟩ | ⟨g, hs, hlt, hok⟩
  · simp [he] at h
  · simp [he] at h
  · rw [hok] at h
    cases h
    simp only [Memory.length, Memory.segment_setSegment]
    by_cases hq : q = id
    · subst hq; simp [hs]
    · simp [hq]

/-- A SegWrite leaves the Free-ID Pool alone. -/
theorem Memory.freeIds_segWrite {m m' : Memory} {id off v : Word} (h : m.segWrite id off v = .ok m') :
    m'.freeIds = m.freeIds := by
  rcases m.segWrite_spec id off v with ⟨_, he⟩ | ⟨_, _, _, he⟩ | ⟨_, _, _, he⟩ <;> rw [h] at he <;> cases he
  unfold Memory.setSegment
  split <;> rfl

theorem Memory.wf_segWrite {m m' : Memory} {id off v : Word} (hm : m.wf) (h : m.segWrite id off v = .ok m') : m'.wf := by
  rcases Memory.segWrite_spec m id off v with ⟨_, he⟩ | ⟨g, _, _, he⟩ | ⟨g, hs, hlt, hok⟩
  · simp [he] at h
  · simp [he] at h
  · rw [hok] at h
    cases h
    exact Memory.wf_setSegment hm hs (Segment.wf_write v (Memory.segment_wf hm hs) hlt)

/-! ### SegAlloc (R50, R51) -/

/-- `leastFree` answers a number that is not listed, from its start on, and at most the list's length further. -/
theorem leastFree_spec (is : List Nat) (k : Nat) (hr : is.Pairwise (· < ·)) (hk : ∀ i ∈ is, k ≤ i) :
    k ≤ leastFree k is ∧ leastFree k is ≤ k + is.length ∧ leastFree k is ∉ is := by
  induction is generalizing k with
  | nil => simp [leastFree]
  | cons i is ih =>
    have hr' := List.pairwise_cons.mp hr
    rw [leastFree]
    split
    · next hik =>
      subst hik
      obtain ⟨h1, h2, h3⟩ := ih (i + 1) hr'.2 (fun j hj => hr'.1 j hj)
      refine ⟨by omega, by simp only [List.length_cons]; omega, fun hmem => ?_⟩
      rcases List.mem_cons.mp hmem with h | h
      · omega
      · exact h3 h
    · next hik =>
      have hlt : k < i := Nat.lt_of_le_of_ne (hk i List.mem_cons_self) (Ne.symm hik)
      refine ⟨Nat.le_refl _, by omega, fun hmem => ?_⟩
      rcases List.mem_cons.mp hmem with h | h
      · omega
      · have := hr'.1 k h; omega

theorem Memory.live_iff (m : Memory) (id : Word) :
    m.live id = true ↔ id ≠ 0#32 ∧ (Assoc.get id.toNat m.table).isSome = true := by
  simp [Memory.live]

/-- The identifier an allocation returns obeys R50 whatever was drawn: not 0, and not live before. -/
theorem Memory.chooseIdentifier_spec {m : Memory} (hm : m.wf) (hf : m.hasFreeIdentifier = true) (drawn : Word) :
    m.chooseIdentifier drawn ≠ 0#32 ∧ m.live (m.chooseIdentifier drawn) = false := by
  unfold Memory.chooseIdentifier
  split
  · next h => exact h
  · obtain ⟨_, hr, ht, _, _⟩ := hm
    have hlen : m.table.length < 2 ^ 32 - 1 := by simpa [Memory.hasFreeIdentifier] using hf
    have hpos : ∀ i ∈ Assoc.keys m.table, 1 ≤ i := fun i hi => by
      obtain ⟨e, he, rfl⟩ := List.mem_map.mp hi
      exact (ht e he).1
    obtain ⟨h1, h2, h3⟩ := leastFree_spec (Assoc.keys m.table) 1 hr hpos
    have hk : (Assoc.keys m.table).length = m.table.length := by simp [Assoc.keys]
    have hlt : leastFree 1 (Assoc.keys m.table) < 2 ^ 32 := by omega
    have hnat : (BitVec.ofNat 32 (leastFree 1 (Assoc.keys m.table))).toNat = leastFree 1 (Assoc.keys m.table) := by
      rw [BitVec.toNat_ofNat, Nat.mod_eq_of_lt hlt]
    refine ⟨fun h0 => ?_, ?_⟩
    · rw [h0] at hnat; simp at hnat; omega
    · rw [Memory.live, hnat, Assoc.get_eq_none.mpr h3]; simp

/-- A canonical list of `n` numbers from 1 to `n` holds all of them. -/
theorem mem_of_full {is : List Nat} {n i : Nat} (hr : is.Pairwise (· < ·)) (hb : ∀ j ∈ is, 1 ≤ j ∧ j ≤ n)
    (hl : n ≤ is.length) (hi : 1 ≤ i ∧ i ≤ n) : i ∈ is := by
  have hnodup : is.Nodup := hr.imp (fun h => Nat.ne_of_lt h)
  have hsub : is.toFinset ⊆ Finset.Icc 1 n := fun j hj => Finset.mem_Icc.mpr (hb j (List.mem_toFinset.mp hj))
  have hcard : (Finset.Icc 1 n).card ≤ is.toFinset.card := by
    rw [List.toFinset_card_of_nodup hnodup, Nat.card_Icc]
    omega
  have heq := Finset.eq_of_subset_of_card_le hsub hcard
  exact List.mem_toFinset.mp (heq ▸ Finset.mem_Icc.mpr hi)

/-- In a canonical memory the test by the table's length is exact: it holds when some identifier is free (R51). -/
theorem Memory.hasFreeIdentifier_iff {m : Memory} (hm : m.wf) :
    m.hasFreeIdentifier = true ↔ ∃ id : Word, id ≠ 0#32 ∧ m.live id = false := by
  constructor
  · intro h
    exact ⟨m.chooseIdentifier 0#32, Memory.chooseIdentifier_spec hm h _⟩
  · rintro ⟨id, h0, hl⟩
    obtain ⟨_, hr, ht, _, _⟩ := hm
    have hnot : id.toNat ∉ Assoc.keys m.table := by
      rw [← Assoc.get_eq_none]
      simpa [Memory.live, h0] using hl
    have hlt := id.isLt
    have hpos := Word.toNat_pos h0
    by_contra hfull
    refine hnot (mem_of_full (n := 2 ^ 32 - 1) hr (fun j hj => ?_) ?_ (by omega))
    · obtain ⟨e, he, rfl⟩ := List.mem_map.mp hj
      have := ht e he
      omega
    · have : ¬ m.table.length < 2 ^ 32 - 1 := by simpa [Memory.hasFreeIdentifier] using hfull
      simp only [Assoc.keys, List.length_map]
      omega

/-- Any identifier that R50 allows is returned when it is the drawn one (R150). -/
theorem Memory.chooseIdentifier_drawn {m : Memory} {id : Word} (h0 : id ≠ 0#32) (hl : m.live id = false) :
    m.chooseIdentifier id = id := by
  simp [Memory.chooseIdentifier, h0, hl]

/-- Everything `SegAlloc` can answer. -/
theorem Memory.segAlloc_spec (m : Memory) (canFail refuses : Bool) (drawn n : Word) :
    (m.hasFreeIdentifier = false ∧ canFail = false ∧ m.segAlloc canFail refuses drawn n = none) ∨
    (canFail = true ∧ (refuses = true ∨ m.hasFreeIdentifier = false) ∧
      m.segAlloc canFail refuses drawn n = some (.error ⟨.allocExhausted, .size n⟩)) ∨
    (m.hasFreeIdentifier = true ∧ (canFail = false ∨ refuses = false) ∧
      m.segAlloc canFail refuses drawn n =
        some (.ok (m.chooseIdentifier drawn, m.allocate (m.chooseIdentifier drawn) n))) := by
  unfold Memory.segAlloc
  cases m.hasFreeIdentifier <;> cases canFail <;> cases refuses <;> simp

theorem Memory.segAlloc_ok {m : Memory} (refuses : Bool) (drawn n : Word) (hf : m.hasFreeIdentifier = true) :
    m.segAlloc false refuses drawn n =
      some (.ok (m.chooseIdentifier drawn, m.allocate (m.chooseIdentifier drawn) n)) := by
  simp [Memory.segAlloc, hf]

/-- Which segment any identifier names after an allocation (R50). -/
theorem Memory.segment_allocate (m : Memory) {id : Word} (n q : Word) (h : id ≠ 0#32) :
    (m.allocate id n).segment q = if q = id then some (Segment.zeros n.toNat) else m.segment q := by
  unfold Memory.allocate Memory.segment
  by_cases hq : q = 0#32
  · subst hq; simp [Ne.symm h]
  · by_cases hqi : q = id
    · simp [hqi, h, Assoc.get_put]
    · simp [hq, hqi, Assoc.get_put, Word.toNat_ne hqi]

theorem Memory.wf_allocate {m : Memory} {id : Word} (n : Word) (hm : m.wf) (h0 : id ≠ 0#32) : (m.allocate id n).wf := by
  obtain ⟨hs, hr, ht, hp, hf⟩ := hm
  refine ⟨hs, Assoc.rising_put _ _ hr, fun e he => ?_, hp.filter _, fun i hi => ?_⟩
  · rcases Assoc.mem_put he with rfl | he
    · exact ⟨Word.toNat_pos h0, id.isLt, Segment.wf_zeros n.isLt⟩
    · exact ht e he
  · obtain ⟨hi', hne⟩ := List.mem_filter.mp hi
    have hne' : i ≠ id.toNat := by simpa using hne
    exact ⟨(hf i hi').1, (hf i hi').2.1, by simp [Memory.allocate, Assoc.get_put, hne', (hf i hi').2.2]⟩

/-- An allocation takes the returned identifier out of the Free-ID Pool, and nothing else (log 12). -/
theorem Memory.mem_freeIds_allocate {m : Memory} {id n : Word} {i : Nat} :
    i ∈ (m.allocate id n).freeIds ↔ i ∈ m.freeIds ∧ i ≠ id.toNat := by
  simp [Memory.allocate]

/-! ### SegFree (R52) -/

theorem mem_insertId {k i : Nat} {is : List Nat} : i ∈ insertId k is ↔ i = k ∨ i ∈ is := by
  simp only [insertId, List.mem_append, List.mem_cons, List.mem_filter, decide_eq_true_eq]
  constructor
  · rintro (h | h | h)
    · exact .inr h.1
    · exact .inl h
    · exact .inr h.1
  · rintro (h | h)
    · exact .inr (.inl h)
    · rcases Nat.lt_trichotomy i k with hlt | heq | hgt
      · exact .inl ⟨h, hlt⟩
      · exact .inr (.inl heq)
      · exact .inr (.inr ⟨h, hgt⟩)

theorem pairwise_insertId {is : List Nat} (k : Nat) (h : is.Pairwise (· < ·)) : (insertId k is).Pairwise (· < ·) := by
  simp only [insertId, List.pairwise_append, List.pairwise_cons]
  refine ⟨h.filter _, ⟨fun i hi => ?_, h.filter _⟩, fun i hi j hj => ?_⟩
  · simpa using (List.mem_filter.mp hi).2
  · have hik : i < k := by simpa using (List.mem_filter.mp hi).2
    rcases List.mem_cons.mp hj with rfl | hj
    · exact hik
    · exact Nat.lt_trans hik (by simpa using (List.mem_filter.mp hj).2)

theorem Memory.segFree_of_live {m : Memory} {id : Word} (h : m.live id = true) :
    m.segFree id = .ok { m with table := Assoc.del id.toNat m.table, freeIds := insertId id.toNat m.freeIds } := by
  simp [Memory.segFree, h]

theorem Memory.segFree_of_not_live {m : Memory} {id : Word} (h : m.live id = false) :
    m.segFree id = .error ⟨.badDeallocate, .ident id⟩ := by
  simp [Memory.segFree, h]

/-- Which segment any identifier names after a deallocation (R52). -/
theorem Memory.segment_segFree {m m' : Memory} {id : Word} (h : m.segFree id = .ok m') (q : Word) :
    m'.segment q = if q = id then none else m.segment q := by
  by_cases hl : m.live id = true
  · rw [Memory.segFree_of_live hl] at h
    cases h
    have h0 := (Memory.live_iff m id).mp hl |>.1
    unfold Memory.segment
    by_cases hq : q = 0#32
    · subst hq; simp [Ne.symm h0]
    · by_cases hqi : q = id
      · simp [hqi, h0, Assoc.get_del]
      · simp [hq, hqi, Assoc.get_del, Word.toNat_ne hqi]
  · rw [Memory.segFree_of_not_live (by simpa using hl)] at h
    cases h

theorem Memory.wf_segFree {m m' : Memory} {id : Word} (hm : m.wf) (h : m.segFree id = .ok m') : m'.wf := by
  by_cases hl : m.live id = true
  · rw [Memory.segFree_of_live hl] at h
    cases h
    obtain ⟨hs, hr, ht, hp, hf⟩ := hm
    have h0 := (Memory.live_iff m id).mp hl |>.1
    refine ⟨hs, Assoc.rising_del _ hr, fun e he => ht e (Assoc.mem_del he).1, pairwise_insertId _ hp, fun i hi => ?_⟩
    rcases mem_insertId.mp hi with rfl | hi
    · exact ⟨Word.toNat_pos h0, id.isLt, by simp [Assoc.get_del]⟩
    · refine ⟨(hf i hi).1, (hf i hi).2.1, ?_⟩
      simp only [Assoc.get_del, (hf i hi).2.2, ite_self]
  · rw [Memory.segFree_of_not_live (by simpa using hl)] at h
    cases h

/-! ### SegLoad (R53) -/

theorem Memory.segLoad_of_live {m : Memory} {id : Word} {g : Segment} (h0 : id ≠ 0#32) (h : m.segment id = some g) :
    m.segLoad id = .ok { m with seg0 := g } := by
  rw [Memory.segment_of_ne m h0] at h
  simp [Memory.segLoad, h]

theorem Memory.segLoad_of_not_live {m : Memory} {id : Word} (h0 : id ≠ 0#32) (h : m.live id = false) :
    m.segLoad id = .error ⟨.segmentNotMapped, .ident id⟩ := by
  have hs := (Memory.segment_eq_none m id).mpr ⟨h0, h⟩
  rw [Memory.segment_of_ne m h0] at hs
  simp [Memory.segLoad, hs]

/-- Which segment any identifier names after a load (R53). -/
theorem Memory.segment_segLoad {m m' : Memory} {id : Word} (h0 : id ≠ 0#32) (h : m.segLoad id = .ok m') (q : Word) :
    m'.segment q = if q = 0#32 then m.segment id else m.segment q := by
  rw [Memory.segment_of_ne m h0]
  unfold Memory.segLoad at h
  cases hg : Assoc.get id.toNat m.table with
  | none => simp [hg] at h
  | some g =>
    simp only [hg] at h
    cases h
    by_cases hq : q = 0#32 <;> simp [Memory.segment, hq]

/-- A SegLoad leaves the Free-ID Pool alone. -/
theorem Memory.freeIds_segLoad {m m' : Memory} {id : Word} (h : m.segLoad id = .ok m') : m'.freeIds = m.freeIds := by
  unfold Memory.segLoad at h
  split at h <;> cases h
  rfl

theorem Memory.wf_segLoad {m m' : Memory} {id : Word} (hm : m.wf) (h : m.segLoad id = .ok m') : m'.wf := by
  unfold Memory.segLoad at h
  cases hg : Assoc.get id.toNat m.table with
  | none => simp [hg] at h
  | some g =>
    simp only [hg] at h
    cases h
    obtain ⟨hs, hr, ht, hp, hf⟩ := hm
    exact ⟨(ht _ (Assoc.mem_of_get hg)).2.2, hr, ht, hp, hf⟩

/-! ### Reset, images and planted words -/

theorem Memory.wf_reset : Memory.reset.wf := by decide

/-- The planted word is what a fetch reads, and every other offset that read a word still reads it. -/
theorem Memory.fetch_plant (m : Memory) (off : Word) (w : Word) : (m.plant off.toNat w).fetch off = some w := by
  simp only [Memory.fetch, Memory.plant]
  rw [Segment.read_write _ _ _ _ (by simp only []; omega)]
  simp

/-- Planting a word keeps the canonical form, unless segment zero would reach 2^32 words (R46). -/
theorem Memory.wf_plant {m : Memory} {off : Nat} (w : Word) (hm : m.wf) (h : off + 1 < 2 ^ 32) : (m.plant off w).wf := by
  refine ⟨Segment.wf_write w ⟨hm.1.1, fun c hc => ?_, ?_⟩ ?_, hm.2⟩
  · exact ⟨Nat.lt_of_lt_of_le (hm.1.2.1 c hc).1 (Nat.le_max_left _ _), (hm.1.2.1 c hc).2⟩
  · have := hm.1.2.2
    simp only []
    omega
  · simp only []
    omega

end Sys2Proof.Machine
end

