-- ==== Sys2Proof/Laws/State.lean ====
section
/-! SUPPORT. One lemma per field per named update of State, and the laws of the register accessors. -/

namespace Sys2Proof.Machine

variable (s : State)

/-! ### `writeReg` -/

@[simp] theorem State.writeReg_regs (r : Reg) (v : Word) : (s.writeReg r v).regs = s.regs.set r v := rfl
@[simp] theorem State.writeReg_pc (r : Reg) (v : Word) : (s.writeReg r v).pc = s.pc := rfl
@[simp] theorem State.writeReg_run (r : Reg) (v : Word) : (s.writeReg r v).run = s.run := rfl
@[simp] theorem State.writeReg_fault (r : Reg) (v : Word) : (s.writeReg r v).fault = s.fault := rfl
@[simp] theorem State.writeReg_mem (r : Reg) (v : Word) : (s.writeReg r v).mem = s.mem := rfl
@[simp] theorem State.writeReg_input (r : Reg) (v : Word) : (s.writeReg r v).input = s.input := rfl
@[simp] theorem State.writeReg_inputAfter (r : Reg) (v : Word) : (s.writeReg r v).inputAfter = s.inputAfter := rfl
@[simp] theorem State.writeReg_output (r : Reg) (v : Word) : (s.writeReg r v).output = s.output := rfl
@[simp] theorem State.writeReg_outputRoom (r : Reg) (v : Word) : (s.writeReg r v).outputRoom = s.outputRoom := rfl
@[simp] theorem State.writeReg_allocCanFail (r : Reg) (v : Word) : (s.writeReg r v).allocCanFail = s.allocCanFail := rfl
@[simp] theorem State.writeReg_draws (r : Reg) (v : Word) : (s.writeReg r v).draws = s.draws := rfl

/-! ### `setPc` -/

@[simp] theorem State.setPc_regs (target : Word) : (s.setPc target).regs = s.regs := rfl
@[simp] theorem State.setPc_pc (target : Word) : (s.setPc target).pc = target := rfl
@[simp] theorem State.setPc_run (target : Word) : (s.setPc target).run = s.run := rfl
@[simp] theorem State.setPc_fault (target : Word) : (s.setPc target).fault = s.fault := rfl
@[simp] theorem State.setPc_mem (target : Word) : (s.setPc target).mem = s.mem := rfl
@[simp] theorem State.setPc_input (target : Word) : (s.setPc target).input = s.input := rfl
@[simp] theorem State.setPc_inputAfter (target : Word) : (s.setPc target).inputAfter = s.inputAfter := rfl
@[simp] theorem State.setPc_output (target : Word) : (s.setPc target).output = s.output := rfl
@[simp] theorem State.setPc_outputRoom (target : Word) : (s.setPc target).outputRoom = s.outputRoom := rfl
@[simp] theorem State.setPc_allocCanFail (target : Word) : (s.setPc target).allocCanFail = s.allocCanFail := rfl
@[simp] theorem State.setPc_draws (target : Word) : (s.setPc target).draws = s.draws := rfl
@[simp] theorem State.setPc_readReg (target : Word) (q : Reg) : (s.setPc target).readReg q = s.readReg q := rfl

/-! ### `setMem` -/

@[simp] theorem State.setMem_regs (m : Memory) : (s.setMem m).regs = s.regs := rfl
@[simp] theorem State.setMem_pc (m : Memory) : (s.setMem m).pc = s.pc := rfl
@[simp] theorem State.setMem_run (m : Memory) : (s.setMem m).run = s.run := rfl
@[simp] theorem State.setMem_fault (m : Memory) : (s.setMem m).fault = s.fault := rfl
@[simp] theorem State.setMem_mem (m : Memory) : (s.setMem m).mem = m := rfl
@[simp] theorem State.setMem_input (m : Memory) : (s.setMem m).input = s.input := rfl
@[simp] theorem State.setMem_inputAfter (m : Memory) : (s.setMem m).inputAfter = s.inputAfter := rfl
@[simp] theorem State.setMem_output (m : Memory) : (s.setMem m).output = s.output := rfl
@[simp] theorem State.setMem_outputRoom (m : Memory) : (s.setMem m).outputRoom = s.outputRoom := rfl
@[simp] theorem State.setMem_allocCanFail (m : Memory) : (s.setMem m).allocCanFail = s.allocCanFail := rfl
@[simp] theorem State.setMem_draws (m : Memory) : (s.setMem m).draws = s.draws := rfl
@[simp] theorem State.setMem_readReg (m : Memory) (q : Reg) : (s.setMem m).readReg q = s.readReg q := rfl

/-! ### `setRun` -/

@[simp] theorem State.setRun_regs (r : RunState) : (s.setRun r).regs = s.regs := rfl
@[simp] theorem State.setRun_pc (r : RunState) : (s.setRun r).pc = s.pc := rfl
@[simp] theorem State.setRun_run (r : RunState) : (s.setRun r).run = r := rfl
@[simp] theorem State.setRun_fault (r : RunState) : (s.setRun r).fault = s.fault := rfl
@[simp] theorem State.setRun_mem (r : RunState) : (s.setRun r).mem = s.mem := rfl
@[simp] theorem State.setRun_input (r : RunState) : (s.setRun r).input = s.input := rfl
@[simp] theorem State.setRun_inputAfter (r : RunState) : (s.setRun r).inputAfter = s.inputAfter := rfl
@[simp] theorem State.setRun_output (r : RunState) : (s.setRun r).output = s.output := rfl
@[simp] theorem State.setRun_outputRoom (r : RunState) : (s.setRun r).outputRoom = s.outputRoom := rfl
@[simp] theorem State.setRun_allocCanFail (r : RunState) : (s.setRun r).allocCanFail = s.allocCanFail := rfl
@[simp] theorem State.setRun_draws (r : RunState) : (s.setRun r).draws = s.draws := rfl
@[simp] theorem State.setRun_readReg (r : RunState) (q : Reg) : (s.setRun r).readReg q = s.readReg q := rfl

/-! ### `countDraw` -/

@[simp] theorem State.countDraw_regs : (s.countDraw).regs = s.regs := rfl
@[simp] theorem State.countDraw_pc : (s.countDraw).pc = s.pc := rfl
@[simp] theorem State.countDraw_run : (s.countDraw).run = s.run := rfl
@[simp] theorem State.countDraw_fault : (s.countDraw).fault = s.fault := rfl
@[simp] theorem State.countDraw_mem : (s.countDraw).mem = s.mem := rfl
@[simp] theorem State.countDraw_input : (s.countDraw).input = s.input := rfl
@[simp] theorem State.countDraw_inputAfter : (s.countDraw).inputAfter = s.inputAfter := rfl
@[simp] theorem State.countDraw_output : (s.countDraw).output = s.output := rfl
@[simp] theorem State.countDraw_outputRoom : (s.countDraw).outputRoom = s.outputRoom := rfl
@[simp] theorem State.countDraw_allocCanFail : (s.countDraw).allocCanFail = s.allocCanFail := rfl
@[simp] theorem State.countDraw_draws : (s.countDraw).draws = s.draws + 1 := rfl
@[simp] theorem State.countDraw_readReg (q : Reg) : (s.countDraw).readReg q = s.readReg q := rfl

/-! ### `advance` -/

@[simp] theorem State.advance_regs : (s.advance).regs = s.regs := rfl
@[simp] theorem State.advance_pc : (s.advance).pc = s.pc + 1#32 := rfl
@[simp] theorem State.advance_run : (s.advance).run = s.run := rfl
@[simp] theorem State.advance_fault : (s.advance).fault = s.fault := rfl
@[simp] theorem State.advance_mem : (s.advance).mem = s.mem := rfl
@[simp] theorem State.advance_input : (s.advance).input = s.input := rfl
@[simp] theorem State.advance_inputAfter : (s.advance).inputAfter = s.inputAfter := rfl
@[simp] theorem State.advance_output : (s.advance).output = s.output := rfl
@[simp] theorem State.advance_outputRoom : (s.advance).outputRoom = s.outputRoom := rfl
@[simp] theorem State.advance_allocCanFail : (s.advance).allocCanFail = s.allocCanFail := rfl
@[simp] theorem State.advance_draws : (s.advance).draws = s.draws := rfl
@[simp] theorem State.advance_readReg (q : Reg) : (s.advance).readReg q = s.readReg q := rfl

/-! ### `enterFault` -/

@[simp] theorem State.enterFault_regs (p : Word) (w : Option Word) (e : FaultEvent) : (s.enterFault p w e).regs = s.regs := rfl
@[simp] theorem State.enterFault_pc (p : Word) (w : Option Word) (e : FaultEvent) : (s.enterFault p w e).pc = s.pc := rfl
@[simp] theorem State.enterFault_run (p : Word) (w : Option Word) (e : FaultEvent) : (s.enterFault p w e).run = .faulted := rfl
@[simp] theorem State.enterFault_fault (p : Word) (w : Option Word) (e : FaultEvent) : (s.enterFault p w e).fault = ⟨e.cause, p, w, e.info⟩ := rfl
@[simp] theorem State.enterFault_mem (p : Word) (w : Option Word) (e : FaultEvent) : (s.enterFault p w e).mem = s.mem := rfl
@[simp] theorem State.enterFault_input (p : Word) (w : Option Word) (e : FaultEvent) : (s.enterFault p w e).input = s.input := rfl
@[simp] theorem State.enterFault_inputAfter (p : Word) (w : Option Word) (e : FaultEvent) : (s.enterFault p w e).inputAfter = s.inputAfter := rfl
@[simp] theorem State.enterFault_output (p : Word) (w : Option Word) (e : FaultEvent) : (s.enterFault p w e).output = s.output := rfl
@[simp] theorem State.enterFault_outputRoom (p : Word) (w : Option Word) (e : FaultEvent) : (s.enterFault p w e).outputRoom = s.outputRoom := rfl
@[simp] theorem State.enterFault_allocCanFail (p : Word) (w : Option Word) (e : FaultEvent) : (s.enterFault p w e).allocCanFail = s.allocCanFail := rfl
@[simp] theorem State.enterFault_draws (p : Word) (w : Option Word) (e : FaultEvent) : (s.enterFault p w e).draws = s.draws := rfl
@[simp] theorem State.enterFault_readReg (p : Word) (w : Option Word) (e : FaultEvent) (q : Reg) : (s.enterFault p w e).readReg q = s.readReg q := rfl

/-! ### `raise` -/

@[simp] theorem State.raise_regs (e : FaultEvent) : (s.raise e).regs = s.regs := rfl
@[simp] theorem State.raise_pc (e : FaultEvent) : (s.raise e).pc = s.pc := rfl
@[simp] theorem State.raise_run (e : FaultEvent) : (s.raise e).run = .faulted := rfl
@[simp] theorem State.raise_fault (e : FaultEvent) : (s.raise e).fault = ⟨e.cause, s.pc - 1#32, s.mem.fetch (s.pc - 1#32), e.info⟩ := rfl
@[simp] theorem State.raise_mem (e : FaultEvent) : (s.raise e).mem = s.mem := rfl
@[simp] theorem State.raise_input (e : FaultEvent) : (s.raise e).input = s.input := rfl
@[simp] theorem State.raise_inputAfter (e : FaultEvent) : (s.raise e).inputAfter = s.inputAfter := rfl
@[simp] theorem State.raise_output (e : FaultEvent) : (s.raise e).output = s.output := rfl
@[simp] theorem State.raise_outputRoom (e : FaultEvent) : (s.raise e).outputRoom = s.outputRoom := rfl
@[simp] theorem State.raise_allocCanFail (e : FaultEvent) : (s.raise e).allocCanFail = s.allocCanFail := rfl
@[simp] theorem State.raise_draws (e : FaultEvent) : (s.raise e).draws = s.draws := rfl
@[simp] theorem State.raise_readReg (e : FaultEvent) (q : Reg) : (s.raise e).readReg q = s.readReg q := rfl

/-! ### `raiseFetchFault` -/

@[simp] theorem State.raiseFetchFault_regs : (s.raiseFetchFault).regs = s.regs := rfl
@[simp] theorem State.raiseFetchFault_pc : (s.raiseFetchFault).pc = s.pc := rfl
@[simp] theorem State.raiseFetchFault_run : (s.raiseFetchFault).run = .faulted := rfl
@[simp] theorem State.raiseFetchFault_fault : (s.raiseFetchFault).fault = ⟨.fetchOutOfBounds, s.pc, none, .offset s.pc⟩ := rfl
@[simp] theorem State.raiseFetchFault_mem : (s.raiseFetchFault).mem = s.mem := rfl
@[simp] theorem State.raiseFetchFault_input : (s.raiseFetchFault).input = s.input := rfl
@[simp] theorem State.raiseFetchFault_inputAfter : (s.raiseFetchFault).inputAfter = s.inputAfter := rfl
@[simp] theorem State.raiseFetchFault_output : (s.raiseFetchFault).output = s.output := rfl
@[simp] theorem State.raiseFetchFault_outputRoom : (s.raiseFetchFault).outputRoom = s.outputRoom := rfl
@[simp] theorem State.raiseFetchFault_allocCanFail : (s.raiseFetchFault).allocCanFail = s.allocCanFail := rfl
@[simp] theorem State.raiseFetchFault_draws : (s.raiseFetchFault).draws = s.draws := rfl
@[simp] theorem State.raiseFetchFault_readReg (q : Reg) : (s.raiseFetchFault).readReg q = s.readReg q := rfl

/-! ### Registers -/

/-- A register reads the value just written to it (R13). -/
@[simp] theorem State.readReg_writeReg_same (r : Reg) (v : Word) : (s.writeReg r v).readReg r = v := by
  simp [State.readReg, State.writeReg]

/-- A write leaves every other register alone (R20: no aliases). -/
theorem State.readReg_writeReg_other {r q : Reg} (v : Word) (h : q ≠ r) :
    (s.writeReg r v).readReg q = s.readReg q := by
  have h' : (r : Nat) ≠ (q : Nat) := fun e => h (Fin.ext e.symm)
  simp [State.readReg, State.writeReg, h']

/-- What any register reads after a write. -/
theorem State.readReg_writeReg (r q : Reg) (v : Word) :
    (s.writeReg r v).readReg q = if q = r then v else s.readReg q := by
  split
  · next h => subst h; simp
  · next h => exact s.readReg_writeReg_other v h

/-- A register write changes the registers only. -/
@[simp] theorem State.writeReg_restore (r : Reg) (v : Word) : { s.writeReg r v with regs := s.regs } = s := rfl

/-- Two states with equal registers and equal other fields are equal, register by register. -/
theorem State.regs_ext {s t : State} (h : ∀ r, t.readReg r = s.readReg r) : t.regs = s.regs := by
  apply Vector.ext
  intro i hi
  exact h ⟨i, hi⟩

end Sys2Proof.Machine
end

