-- ==== Sys2Proof/Laws/Ops.lean ====
section
/-! SUPPORT. The laws of the shared operations: one lemma for everything a port's answer, the I/O port, the installation
of a program and the ALU can do. -/

namespace Sys2Proof.Machine

variable {s t : State}

/-! ### Faults and port answers -/

/-- The offset a raise after the advance is charged to is the one the instruction was fetched from (R171). -/
@[simp] theorem Word.add_one_sub_one (w : Word) : w + 1#32 - 1#32 = w := by
  simp

/-- A raise changes the run state and the record only (R171). -/
theorem State.raise_restore (s : State) (e : FaultEvent) :
    { s.raise e with run := s.run, fault := s.fault } = s := rfl

theorem State.raiseFetchFault_restore (s : State) :
    { s.raiseFetchFault with run := s.run, fault := s.fault } = s := rfl

/-- Everything a port's answer can lead to (R140). -/
theorem State.onAnswer_cases {α : Type} (s : State) (r : Except FaultEvent α) (k : α → State) :
    (∃ a, r = .ok a ∧ s.onAnswer r k = k a) ∨ (∃ e, r = .error e ∧ s.onAnswer r k = s.raise e) := by
  cases r with
  | ok a => exact .inl ⟨a, rfl, rfl⟩
  | error e => exact .inr ⟨e, rfl, rfl⟩

@[simp] theorem State.onAnswer_ok {α : Type} (s : State) (a : α) (k : α → State) : s.onAnswer (.ok a) k = k a := rfl

@[simp] theorem State.onAnswer_error {α : Type} (s : State) (e : FaultEvent) (k : α → State) :
    s.onAnswer (.error e) k = s.raise e := rfl

/-! ### The I/O port -/

/-- Everything `IoIn()` can answer (R62, R165). -/
theorem State.ioIn_cases (s : State) :
    (∃ a rest, s.input = a :: rest ∧ s.ioIn = some (a, { s with input := rest })) ∨
    (s.input = [] ∧ s.inputAfter = .endOfStream ∧ s.ioIn = some (.eos, s)) ∨
    (s.input = [] ∧ s.inputAfter = .noAnswer ∧ s.ioIn = none) ∨
    (∃ n, s.input = [] ∧ s.inputAfter = .drawn n ∧
      s.ioIn = some (InputAnswer.ofDraw (Config.freeInputAnswer n), { s with inputAfter := .drawn (n + 1) })) := by
  unfold State.ioIn
  cases hi : s.input with
  | cons a rest => exact .inl ⟨a, rest, rfl, rfl⟩
  | nil =>
    cases ha : s.inputAfter with
    | endOfStream => exact .inr (.inl ⟨rfl, rfl, rfl⟩)
    | noAnswer => exact .inr (.inr (.inl ⟨rfl, rfl, rfl⟩))
    | drawn n => exact .inr (.inr (.inr ⟨n, rfl, rfl, rfl⟩))

/-- The word IN writes is a byte's value or all ones (R164). -/
theorem inputWord_cases (a : InputAnswer) :
    (∃ b : Byte, a = .byte b ∧ inputWord a = BitVec.ofNat 32 b.toNat) ∨ (a = .eos ∧ inputWord a = Word.allOnes) := by
  cases a with
  | byte b => exact .inl ⟨b, rfl, BitVec.eq_of_toNat_eq (by simp [inputWord, wordOfByte])⟩
  | eos => exact .inr ⟨rfl, rfl⟩

/-- Everything `IoOut(b)` can do (R63, R163). -/
theorem State.ioOut_cases (s : State) (b : Byte) :
    (s.outputRoom = some 0 ∧ s.ioOut b = none) ∨
    (s.outputRoom ≠ some 0 ∧
      s.ioOut b = some { s with output := s.output ++ [b], outputRoom := s.outputRoom.map (· - 1) }) := by
  unfold State.ioOut
  cases hr : s.outputRoom with
  | none => exact .inr ⟨by simp, by simp⟩
  | some n =>
    cases n with
    | zero => exact .inl ⟨rfl, rfl⟩
    | succ n => exact .inr ⟨by simp, by simp⟩

/-! ### The comparators and the ALU -/

@[simp] theorem isNonZero_iff (v : Word) : isNonZero v = true ↔ v ≠ 0#32 := by
  rw [isNonZero, decide_eq_true_eq]
  exact not_congr ⟨fun h => BitVec.eq_of_toNat_eq h, fun h => by rw [h]; rfl⟩

@[simp] theorem isZero_iff (v : Word) : isZero v = true ↔ v = 0#32 := by
  rw [isZero, decide_eq_true_eq]
  exact ⟨fun h => BitVec.eq_of_toNat_eq h, fun h => by rw [h]; rfl⟩

@[simp] theorem exceedsByte_iff (v : Word) : exceedsByte v = true ↔ 255 < v.toNat := by
  simp [exceedsByte]

/-- The quotient never wraps: "A quotient never exceeds its dividend" (R127). -/
theorem aluDiv_toNat (b c : Word) : (aluDiv b c).toNat = b.toNat / c.toNat := by
  rw [aluDiv, BitVec.toNat_ofNat]
  exact Nat.mod_eq_of_lt (Nat.lt_of_le_of_lt (Nat.div_le_self _ _) b.isLt)

/-- A value in range equals its low byte (R162). -/
theorem lowByte_toNat {v : Word} (h : v.toNat ≤ 255) : (lowByte v).toNat = v.toNat := by
  simp [lowByte]
  omega

/-! ### Installing a program -/

theorem State.wf_reset : State.reset.mem.wf := Memory.wf_reset

/-- The words of an image: four bytes each, in order, the first byte highest (R56). -/
theorem imageWords_spec (image : List Byte) (ws : List Word) (h : imageWords image = some ws) :
    4 * ws.length = image.length ∧
    ∀ k b0 b1 b2 b3, image[4 * k]? = some b0 → image[4 * k + 1]? = some b1 → image[4 * k + 2]? = some b2 →
      image[4 * k + 3]? = some b3 → ws[k]? = some (b0 ++ b1 ++ b2 ++ b3) := by
  induction image using imageWords.induct generalizing ws with
  | case1 => cases h; simp
  | case2 b0 b1 b2 b3 rest ih =>
    rw [imageWords] at h
    cases hr : imageWords rest with
    | none => simp [hr] at h
    | some us =>
      simp only [hr, Option.map_some, Option.some.injEq] at h
      subst h
      obtain ⟨hl, hw⟩ := ih us hr
      refine ⟨by simp only [List.length_cons]; omega, fun k c0 c1 c2 c3 h0 h1 h2 h3 => ?_⟩
      cases k with
      | zero => simp at h0 h1 h2 h3; subst h0 h1 h2 h3; rfl
      | succ k => exact hw k c0 c1 c2 c3 h0 h1 h2 h3
  | case3 image h1 h2 => rw [imageWords] at h <;> first | cases h | assumption

/-- Which images have words: those of whole words (R201). -/
theorem imageWords_isSome (image : List Byte) : (imageWords image).isSome ↔ image.length % 4 = 0 := by
  induction image using imageWords.induct with
  | case1 => exact iff_of_true rfl rfl
  | case2 b0 b1 b2 b3 rest ih =>
    rw [imageWords, Option.isSome_map, ih]
    simp only [List.length_cons]
    omega
  | case3 image h1 h2 =>
    rcases image with _ | ⟨a, _ | ⟨b, _ | ⟨c, _ | ⟨d, rest⟩⟩⟩⟩
    · exact absurd rfl h1
    · exact iff_of_false nofun nofun
    · exact iff_of_false nofun nofun
    · exact iff_of_false nofun nofun
    · exact absurd rfl (h2 a b c d rest)

/-- Everything `State.boot` can answer. -/
theorem State.boot_some {image : List Byte} {s : State} (h : State.boot image = some s) :
    ∃ ws, imageWords image = some ws ∧ ws.length < 2 ^ 32 ∧
      s = State.reset.setMem { Memory.reset with seg0 := Segment.ofWords ws } := by
  unfold State.boot at h
  cases hw : imageWords image with
  | none => simp [hw] at h
  | some ws =>
    simp only [hw] at h
    split at h
    · next hlt => cases h; exact ⟨ws, rfl, hlt, rfl⟩
    · cases h

/-- The placed word is what the next step fetches. -/
theorem State.placeWord_fetch (s : State) (w : Word) :
    (s.placeWord w).run = .running ∧ (s.placeWord w).pc = s.pc ∧ (s.placeWord w).mem.fetch s.pc = some w := by
  unfold State.placeWord
  split
  · next h => exact ⟨h, rfl, Memory.fetch_plant _ _ _⟩
  all_goals exact ⟨rfl, rfl, Memory.fetch_plant _ _ _⟩

end Sys2Proof.Machine
end

