-- ==== Sys2Proof/Laws/Exec.lean ====
section
/-! SUPPORT. What an instruction and a step can do, said once: every next state is a completion or a fault, each in one
of the listed ways. -/

namespace Sys2Proof.Machine

/-- The ways an instruction completes, with the state it leaves. -/
inductive Completes (s : State) : Instr → State → Prop where
  | cmovMoves {a b c : Reg} : s.readReg c ≠ 0#32 → Completes s (.cmov a b c) (s.writeReg a (s.readReg b))
  | cmovStays {a b c : Reg} : s.readReg c = 0#32 → Completes s (.cmov a b c) s
  | segread {a b c : Reg} {v : Word} : s.mem.word (s.readReg b) (s.readReg c) = some v →
      Completes s (.segread a b c) (s.writeReg a v)
  | segwrite {a b c : Reg} {m : Memory} : s.mem.segWrite (s.readReg a) (s.readReg b) (s.readReg c) = .ok m →
      Completes s (.segwrite a b c) (s.setMem m)
  | add {a b c : Reg} : Completes s (.add a b c) (s.writeReg a (aluAdd (s.readReg b) (s.readReg c)))
  | mul {a b c : Reg} : Completes s (.mul a b c) (s.writeReg a (aluMul (s.readReg b) (s.readReg c)))
  | div {a b c : Reg} : s.readReg c ≠ 0#32 →
      Completes s (.div a b c) (s.writeReg a (aluDiv (s.readReg b) (s.readReg c)))
  | nand {a b c : Reg} : Completes s (.nand a b c) (s.writeReg a (aluNand (s.readReg b) (s.readReg c)))
  | halt : Completes s .halt (s.setRun .halted)
  | segalloc {b c : Reg} {id : Word} : s.mem.hasFreeIdentifier = true →
      id = s.mem.chooseIdentifier (Config.freeIdentifier s.draws) →
      Completes s (.segalloc b c) (((s.setMem (s.mem.allocate id (s.readReg c))).countDraw).writeReg b id)
  | segfree {c : Reg} {m : Memory} : s.mem.segFree (s.readReg c) = .ok m → Completes s (.segfree c) (s.setMem m)
  | out {c : Reg} : (s.readReg c).toNat ≤ 255 → s.outputRoom ≠ some 0 →
      Completes s (.out c)
        { s with output := s.output ++ [lowByte (s.readReg c)], outputRoom := s.outputRoom.map (· - 1) }
  | inpListed {c : Reg} {r : InputAnswer} {rest : List InputAnswer} : s.input = r :: rest →
      Completes s (.inp c) (State.writeReg { s with input := rest } c (inputWord r))
  | inpClosed {c : Reg} : s.input = [] → s.inputAfter = .endOfStream →
      Completes s (.inp c) (s.writeReg c Word.allOnes)
  | inpDrawn {c : Reg} {n : Nat} : s.input = [] → s.inputAfter = .drawn n →
      Completes s (.inp c) (State.writeReg { s with inputAfter := .drawn (n + 1) } c
        (inputWord (InputAnswer.ofDraw (Config.freeInputAnswer n))))
  | loadprogZero {b c : Reg} : s.readReg b = 0#32 → Completes s (.loadprog b c) (s.setPc (s.readReg c))
  | loadprogLoad {b c : Reg} {m : Memory} : s.readReg b ≠ 0#32 → s.mem.segLoad (s.readReg b) = .ok m →
      Completes s (.loadprog b c) ((s.setMem m).setPc (s.readReg c))
  | loadimm {la : Reg} {imm : Word} : Completes s (.loadimm la imm) (s.writeReg la (immediate imm))

/-- The ways an instruction faults, with the event it raises (R172). -/
inductive Faults (s : State) : Instr → FaultEvent → Prop where
  | divideByZero {a b c : Reg} : s.readReg c = 0#32 →
      Faults s (.div a b c) ⟨.divideByZero, .dividend (s.readReg b)⟩
  | segreadUnmapped {a b c : Reg} : s.mem.segment (s.readReg b) = none →
      Faults s (.segread a b c) ⟨.segmentNotMapped, .ident (s.readReg b)⟩
  | segreadBeyond {a b c : Reg} {g : Segment} : s.mem.segment (s.readReg b) = some g → g.len ≤ (s.readReg c).toNat →
      Faults s (.segread a b c) ⟨.segmentOffsetOutOfBounds, .identOffset (s.readReg b) (s.readReg c)⟩
  | segwriteUnmapped {a b c : Reg} : s.mem.segment (s.readReg a) = none →
      Faults s (.segwrite a b c) ⟨.segmentNotMapped, .ident (s.readReg a)⟩
  | segwriteBeyond {a b c : Reg} {g : Segment} : s.mem.segment (s.readReg a) = some g → g.len ≤ (s.readReg b).toNat →
      Faults s (.segwrite a b c) ⟨.segmentOffsetOutOfBounds, .identOffset (s.readReg a) (s.readReg b)⟩
  | allocExhausted {b c : Reg} : s.allocCanFail = true →
      Faults s (.segalloc b c) ⟨.allocExhausted, .size (s.readReg c)⟩
  | badDeallocate {c : Reg} : s.mem.live (s.readReg c) = false →
      Faults s (.segfree c) ⟨.badDeallocate, .ident (s.readReg c)⟩
  | outputOutOfRange {c : Reg} : 255 < (s.readReg c).toNat →
      Faults s (.out c) ⟨.outputOutOfRange, .value (s.readReg c)⟩
  | loadprogUnmapped {b c : Reg} : s.readReg b ≠ 0#32 → s.mem.live (s.readReg b) = false →
      Faults s (.loadprog b c) ⟨.segmentNotMapped, .ident (s.readReg b)⟩

/-- Every next state of an instruction is a completion or a fault, in one of the ways listed. -/
theorem exec_cases {i : Instr} {s t : State} (h : exec i s = .next t) :
    Completes s i t ∨ ∃ e, Faults s i e ∧ t = s.raise e := by
  cases i with
  | cmov a b c =>
    simp only [exec, execCmov, Host.Outcome.next.injEq] at h
    split at h
    · next hc => subst h; exact .inl (.cmovMoves ((isNonZero_iff _).mp hc))
    · next hc => subst h; exact .inl (.cmovStays (by simpa using hc))
  | segread a b c =>
    simp only [exec, execSegread, Host.Outcome.next.injEq] at h
    rcases s.mem.segRead_spec (s.readReg b) (s.readReg c) with ⟨hs, he⟩ | ⟨g, hs, hl, he⟩ | ⟨v, hw, hok⟩
    · rw [he] at h; exact .inr ⟨_, .segreadUnmapped hs, h.symm⟩
    · rw [he] at h; exact .inr ⟨_, .segreadBeyond hs hl, h.symm⟩
    · rw [hok] at h; subst h; exact .inl (.segread hw)
  | segwrite a b c =>
    simp only [exec, execSegwrite, Host.Outcome.next.injEq] at h
    rcases s.mem.segWrite_spec (s.readReg a) (s.readReg b) (s.readReg c) with ⟨hs, he⟩ | ⟨g, hs, hl, he⟩ | ⟨g, _, _, hok⟩
    · rw [he] at h; exact .inr ⟨_, .segwriteUnmapped hs, h.symm⟩
    · rw [he] at h; exact .inr ⟨_, .segwriteBeyond hs hl, h.symm⟩
    · rw [hok] at h; subst h; exact .inl (.segwrite hok)
  | add a b c => cases h; exact .inl .add
  | mul a b c => cases h; exact .inl .mul
  | div a b c =>
    simp only [exec, execDiv, Host.Outcome.next.injEq] at h
    split at h
    · next hc => exact .inr ⟨_, .divideByZero ((isZero_iff _).mp hc), h.symm⟩
    · next hc => subst h; exact .inl (.div (fun h0 => hc ((isZero_iff _).mpr h0)))
  | nand a b c => cases h; exact .inl .nand
  | halt => cases h; exact .inl .halt
  | segalloc b c =>
    simp only [exec, execSegalloc] at h
    rcases s.mem.segAlloc_spec s.allocCanFail (Config.freeAllocRefusal s.draws) (Config.freeIdentifier s.draws)
      (s.readReg c) with ⟨_, _, ha⟩ | ⟨hc, _, ha⟩ | ⟨hf, _, ha⟩
    · rw [ha] at h; cases h
    · rw [ha] at h; cases h; exact .inr ⟨_, .allocExhausted hc, rfl⟩
    · rw [ha] at h; cases h; exact .inl (.segalloc hf rfl)
  | segfree c =>
    simp only [exec, execSegfree, Host.Outcome.next.injEq] at h
    cases hl : s.mem.live (s.readReg c) with
    | true =>
      have hok := Memory.segFree_of_live hl
      rw [hok] at h; subst h; exact .inl (.segfree hok)
    | false => rw [Memory.segFree_of_not_live hl] at h; exact .inr ⟨_, .badDeallocate hl, h.symm⟩
  | out c =>
    simp only [exec, execOut] at h
    split at h
    · next hc => cases h; exact .inr ⟨_, .outputOutOfRange ((exceedsByte_iff _).mp hc), rfl⟩
    · next hc =>
      have hle : (s.readReg c).toNat ≤ 255 := Nat.le_of_not_lt (fun hlt => hc ((exceedsByte_iff _).mpr hlt))
      rcases s.ioOut_cases (lowByte (s.readReg c)) with ⟨_, ho⟩ | ⟨hr, ho⟩
      · rw [ho] at h; cases h
      · rw [ho] at h; cases h; exact .inl (.out hle hr)
  | inp c =>
    simp only [exec, execInp] at h
    rcases s.ioIn_cases with ⟨r, rest, hi, ho⟩ | ⟨hi, ha, ho⟩ | ⟨_, _, ho⟩ | ⟨n, hi, ha, ho⟩
    · rw [ho] at h; cases h; exact .inl (.inpListed hi)
    · rw [ho] at h; cases h; exact .inl (.inpClosed hi ha)
    · rw [ho] at h; cases h
    · rw [ho] at h; cases h; exact .inl (.inpDrawn hi ha)
  | loadprog b c =>
    simp only [exec, execLoadprog, Host.Outcome.next.injEq] at h
    split at h
    · next hb =>
      have h0 := (isNonZero_iff _).mp hb
      rcases s.onAnswer_cases (s.mem.segLoad (s.readReg b)) (fun m => (s.setMem m).setPc (s.readReg c)) with
        ⟨m, hm, hk⟩ | ⟨e, he, hk⟩
      · rw [hk] at h; subst h; exact .inl (.loadprogLoad h0 hm)
      · rw [hk] at h
        cases hl : s.mem.live (s.readReg b) with
        | false =>
          rw [Memory.segLoad_of_not_live h0 hl] at he
          cases he
          exact .inr ⟨_, .loadprogUnmapped h0 hl, h.symm⟩
        | true =>
          obtain ⟨g, hg⟩ := Option.isSome_iff_exists.mp ((Memory.live_iff _ _).mp hl).2
          simp [Memory.segLoad, hg] at he
    · next hb => subst h; exact .inl (.loadprogZero (by simpa using hb))
  | loadimm la imm => cases h; exact .inl .loadimm

/-- A completion leaves the fault record alone and enters no `FAULTED` state. -/
theorem Completes.fault_eq {i : Instr} {s t : State} (h : Completes s i t) :
    t.fault = s.fault ∧ (t.run = s.run ∨ t.run = .halted) := by
  cases h <;> exact ⟨rfl, by first | exact .inl rfl | exact .inr rfl⟩

/-- A completion leaves the canonical form of the memory. -/
theorem Completes.wf {i : Instr} {s t : State} (h : Completes s i t) (hm : s.mem.wf) : t.mem.wf := by
  cases h with
  | segwrite hw => exact Memory.wf_segWrite hm hw
  | segalloc hf hid => subst hid; exact Memory.wf_allocate _ hm (Memory.chooseIdentifier_spec hm hf _).1
  | segfree hw => exact Memory.wf_segFree hm hw
  | loadprogLoad _ hw => exact Memory.wf_segLoad hm hw
  | _ => exact hm

/-- Only SEGWRITE, SEGALLOC, SEGFREE and LOADPROG with a non-zero identifier change the memory. -/
theorem Completes.mem_eq {i : Instr} {s t : State} (h : Completes s i t) :
    t.mem = s.mem ∨ (∃ a b c, i = .segwrite a b c) ∨ (∃ b c, i = .segalloc b c) ∨ (∃ c, i = .segfree c) ∨
      (∃ b c, i = .loadprog b c ∧ s.readReg b ≠ 0#32) := by
  cases h <;> first
    | exact .inl rfl
    | exact .inr (.inl ⟨_, _, _, rfl⟩)
    | exact .inr (.inr (.inl ⟨_, _, rfl⟩))
    | exact .inr (.inr (.inr (.inl ⟨_, rfl⟩)))
    | exact .inr (.inr (.inr (.inr ⟨_, _, rfl, by assumption⟩)))

/-- Every event an instruction raises has a cause with its own information, and is no fetch fault (R172, R54). -/
theorem Faults.event {i : Instr} {s : State} {e : FaultEvent} (h : Faults s i e) :
    e.cause ≠ .none ∧ e.cause ≠ .fetchOutOfBounds ∧ e.cause ≠ .illegalOpcode ∧ e.cause ≠ .reservedSegmentZero ∧
      e.cause.infoMatches e.info = true := by
  cases h with
  | segreadUnmapped hs =>
    exact ⟨nofun, nofun, nofun, nofun, decide_eq_true ((Memory.segment_eq_none _ _).mp hs).1⟩
  | segwriteUnmapped hs =>
    exact ⟨nofun, nofun, nofun, nofun, decide_eq_true ((Memory.segment_eq_none _ _).mp hs).1⟩
  | loadprogUnmapped h0 _ => exact ⟨nofun, nofun, nofun, nofun, decide_eq_true h0⟩
  | outputOutOfRange hv => exact ⟨nofun, nofun, nofun, nofun, decide_eq_true hv⟩
  | _ => exact ⟨nofun, nofun, nofun, nofun, rfl⟩

/-- Everything a step can do: it takes a fetch fault, it takes a decode fault after the advance, or it is the decoded
instruction's outcome on the advanced state (R101). -/
theorem step_cases {s t : State} (h : step s = .next t) :
    s.run = .running ∧
    ((s.mem.fetch s.pc = none ∧ t = s.raiseFetchFault) ∨
     (∃ w op, s.mem.fetch s.pc = some w ∧ decode w = .error (.illegalOpcode op) ∧ op = (fields w).op ∧ 13 < op.toNat ∧
        t = s.advance.raise ⟨.illegalOpcode, .opcode op⟩) ∨
     (∃ w i, s.mem.fetch s.pc = some w ∧ decode w = .ok i ∧ exec i s.advance = .next t)) := by
  unfold step at h
  split at h
  · cases h
  · cases h
  · next hr =>
    refine ⟨hr, ?_⟩
    split at h
    · next hf => cases h; exact .inl ⟨hf, rfl⟩
    · next w hf =>
      rcases decode_cases w with ⟨i, hd, _⟩ | ⟨hd, hop⟩
      · simp only [hd] at h; exact .inr (.inr ⟨w, i, hf, hd, h⟩)
      · simp only [hd] at h; cases h
        exact .inr (.inl ⟨w, _, hf, hd, rfl, hop, rfl⟩)

end Sys2Proof.Machine
end

