-- ==== Sys2Proof/Laws/PerInstr.lean ====
section
/-! SUPPORT. Statements about every instruction as syntax, one lemma per constructor.
`RoundTrip`: a well-formed instruction's canonical word decodes to it (R82, R83, R91). -/

namespace Sys2Proof.Laws.RoundTrip

/-- The canonical word of a well-formed instruction decodes to that instruction, every operand included. -/
def Statement (i : Instr) : Prop := i.WellFormed → decode (encode i) = .ok i

/-- The opcode field of a canonical three-register word. -/
theorem opcode_enc3 {op : Nat} (a b c : Reg) (h : (slice (placeOp op) 28 4).toNat = op) :
    (fields (enc3 op a b c)).op.toNat = op := by
  rw [fields_enc3_op, h]

theorem cmov (a b c : Reg) : Statement (.cmov a b c) := fun _ => by
  rw [encode, decode_of_op (opcode_enc3 a b c (by decide))]
  simp only [Fields.selectAt, fields_enc3_a, fields_enc3_b, fields_enc3_c]

theorem segread (a b c : Reg) : Statement (.segread a b c) := fun _ => by
  rw [encode, decode_of_op (opcode_enc3 a b c (by decide))]
  simp only [Fields.selectAt, fields_enc3_a, fields_enc3_b, fields_enc3_c]

theorem segwrite (a b c : Reg) : Statement (.segwrite a b c) := fun _ => by
  rw [encode, decode_of_op (opcode_enc3 a b c (by decide))]
  simp only [Fields.selectAt, fields_enc3_a, fields_enc3_b, fields_enc3_c]

theorem add (a b c : Reg) : Statement (.add a b c) := fun _ => by
  rw [encode, decode_of_op (opcode_enc3 a b c (by decide))]
  simp only [Fields.selectAt, fields_enc3_a, fields_enc3_b, fields_enc3_c]

theorem mul (a b c : Reg) : Statement (.mul a b c) := fun _ => by
  rw [encode, decode_of_op (opcode_enc3 a b c (by decide))]
  simp only [Fields.selectAt, fields_enc3_a, fields_enc3_b, fields_enc3_c]

theorem div (a b c : Reg) : Statement (.div a b c) := fun _ => by
  rw [encode, decode_of_op (opcode_enc3 a b c (by decide))]
  simp only [Fields.selectAt, fields_enc3_a, fields_enc3_b, fields_enc3_c]

theorem nand (a b c : Reg) : Statement (.nand a b c) := fun _ => by
  rw [encode, decode_of_op (opcode_enc3 a b c (by decide))]
  simp only [Fields.selectAt, fields_enc3_a, fields_enc3_b, fields_enc3_c]

theorem halt : Statement .halt := fun _ => by
  rw [encode, decode_of_op (opcode_enc3 0 0 0 (by decide))]
  simp only [Fields.selectAt]

theorem segalloc (b c : Reg) : Statement (.segalloc b c) := fun _ => by
  rw [encode, decode_of_op (opcode_enc3 0 b c (by decide))]
  simp only [Fields.selectAt, fields_enc3_b, fields_enc3_c]

theorem segfree (c : Reg) : Statement (.segfree c) := fun _ => by
  rw [encode, decode_of_op (opcode_enc3 0 0 c (by decide))]
  simp only [Fields.selectAt, fields_enc3_c]

theorem out (c : Reg) : Statement (.out c) := fun _ => by
  rw [encode, decode_of_op (opcode_enc3 0 0 c (by decide))]
  simp only [Fields.selectAt, fields_enc3_c]

theorem inp (c : Reg) : Statement (.inp c) := fun _ => by
  rw [encode, decode_of_op (opcode_enc3 0 0 c (by decide))]
  simp only [Fields.selectAt, fields_enc3_c]

theorem loadprog (b c : Reg) : Statement (.loadprog b c) := fun _ => by
  rw [encode, decode_of_op (opcode_enc3 0 b c (by decide))]
  simp only [Fields.selectAt, fields_enc3_b, fields_enc3_c]

theorem loadimm (la : Reg) (imm : Word) : Statement (.loadimm la imm) := fun h => by
  have hf : immediateFits imm := of_decide_eq_true h
  have hop : (fields (encLI la imm)).op.toNat = 13 := by rw [fields_encLI_op la hf]; decide
  rw [encode, decode_of_op hop]
  simp only [Fields.selectAt, fields_encLI_la la hf, fields_encLI_imm la hf]

end Sys2Proof.Laws.RoundTrip
end

