-- ==== Sys2Proof/Tests/Slice0.lean ====
section
/-! SUPPORT. The model's own tests: words and vectors of 95_test_vectors.md (derived there from the spec's rules), the
well-formedness smoke test, and for each statement a state and operands that meet its hypotheses. -/

namespace Sys2Proof.Tests

open Sys2Proof.Machine

/-! ### Small states -/

/-- Segment zero holds `ws`, segment 4 is live with 3 zero words, and registers 1 to 3 hold the given values. -/
def world (ws : List Word) (r1 r2 r3 : Word) : State :=
  (((State.reset.setMem { seg0 := Segment.ofWords ws, table := [(4, Segment.zeros 3)], freeIds := [9] }).writeReg 1 r1).writeReg
    2 r2).writeReg 3 r3

/-- The next state, if there is one. -/
def after : Host.Outcome State Fault Refusal → Option State
  | .next t => some t
  | .fault _ => none
  | .refused _ => none

/-- The stop, if there is one. -/
def stop : Host.Outcome State Fault Refusal → Option Fault
  | .next _ => none
  | .fault f => some f
  | .refused _ => none

theorem next_of_after {o : Host.Outcome State Fault Refusal} (h : (after o).isSome = true) : o = .next ((after o).get h) := by
  cases o with
  | next t => rfl
  | fault f => cases h
  | refused r => cases h

/-- One step of `s` read through `f`. -/
def view {α : Type} (s : State) (f : State → α) : Option α := (after (step s)).map f

/-! ### Well-formedness: the one check, and an ill-formed term it refuses -/

theorem test_wf_refuses_wide_immediate : Instr.wf (.loadimm 1 0x02000000#32) = false := by decide
theorem test_wf_takes_widest_immediate : Instr.wf (.loadimm 1 0x01FFFFFF#32) = true := by decide

/-! ### Decoding: one word per constructor, bit by bit from R82, R83, R86 and R87 -/

theorem test_decode_cmov : decode 0b0000_0000000000000000000_001_010_011#32 = .ok (.cmov 1 2 3) := by decide
theorem test_decode_segread : decode 0b0001_0000000000000000000_111_000_001#32 = .ok (.segread 7 0 1) := by decide
theorem test_decode_segwrite : decode 0b0010_0000000000000000000_010_011_100#32 = .ok (.segwrite 2 3 4) := by decide
theorem test_decode_add : decode 0b0011_0000000000000000000_011_001_010#32 = .ok (.add 3 1 2) := by decide
theorem test_decode_mul : decode 0b0100_0000000000000000000_100_100_011#32 = .ok (.mul 4 4 3) := by decide
theorem test_decode_div : decode 0b0101_0000000000000000000_011_001_010#32 = .ok (.div 3 1 2) := by decide
theorem test_decode_nand : decode 0b0110_0000000000000000000_111_000_000#32 = .ok (.nand 7 0 0) := by decide
theorem test_decode_halt : decode 0b0111_1111111111111111111_111_111_111#32 = .ok .halt := by decide
theorem test_decode_segalloc : decode 0b1000_0000000000000000000_101_010_011#32 = .ok (.segalloc 2 3) := by decide
theorem test_decode_segfree : decode 0b1001_0000000000000000001_111_111_011#32 = .ok (.segfree 3) := by decide
theorem test_decode_out : decode 0b1010_0000000000000000000_111_000_001#32 = .ok (.out 1) := by decide
theorem test_decode_inp : decode 0b1011_0000000000000000000_000_000_010#32 = .ok (.inp 2) := by decide
theorem test_decode_loadprog : decode 0b1100_0000000000000000000_000_001_010#32 = .ok (.loadprog 1 2) := by decide
theorem test_decode_loadimm :
    decode 0b1101_111_1000000000000000000000001#32 = .ok (.loadimm 7 0x01000001#32) := by decide
theorem test_decode_illegal : decode 0xE0000000#32 = .error (.illegalOpcode 14) ∧
    decode 0xFFFFFFFF#32 = .error (.illegalOpcode 15) := by decide
theorem test_encode_p5 : encode (.loadprog 0 4) = 0xC0000004#32 ∧ encode (.nand 7 0 0) = 0x600001C0#32 := by decide
theorem test_decode_bytes : decodeBytes [0xD2, 0x00, 0x00, 0x41, 0xA0] = .ok (.loadimm 1 65#32, [0xA0]) ∧
    decodeBytes [0xD2, 0x00, 0x00] = .error .truncated := by decide
theorem test_decode_table_word : decodeTableWord 32 0x90000003 = some (.segfree 3) ∧
    decodeTableWord 32 0xE0000000 = none := by decide

/-! ### One step per vector: the V, M, O and Q rows of 95_test_vectors.md -/

theorem test_cmov_v3 : view (world [0x00000053#32] 9 7 0x80000000) (·.readReg 1) = some 7#32 := by decide
theorem test_cmov_v4_condition_is_destination : view (world [0x00000051#32] 0 7 1) (·.readReg 1) = some 0#32 := by decide
theorem test_add_v6_wraps : view (world [0x30000053#32] 5 0xFFFFFFFF 1) (·.readReg 1) = some 0#32 := by decide
theorem test_add_v9_doubles : view (world [0x30000049#32] 0x80000001 0 0) (·.readReg 1) = some 2#32 := by decide
theorem test_mul_v11 : view (world [0x40000053#32] 0 0xFFFFFFFF 0xFFFFFFFF) (·.readReg 1) = some 1#32 := by decide
theorem test_div_v15_unsigned :
    view (world [0x50000053#32] 1 0x80000000 0xFFFFFFFF) (·.readReg 1) = some 0#32 := by decide
theorem test_div_v18_by_zero : view (world [0x50000053#32] 9 7 0)
    (fun t => (t.run, t.fault.cause, t.fault.faultInfo, t.readReg 1)) =
      some (.faulted, .divideByZero, .dividend 7#32, 9#32) := by decide
theorem test_nand_v20 :
    view (world [0x60000053#32] 0 0xF0F0F0F0 0xFF00FF00) (·.readReg 1) = some 0x0FFF0FFF#32 := by decide
theorem test_loadimm_v24 : view (world [0xD3FFFFFF#32] 0 0 0) (·.readReg 1) = some 0x01FFFFFF#32 := by decide
theorem test_segread_m1 :
    view (world [0x10000053#32, 0x70000000#32] 5 0 1) (·.readReg 1) = some 0x70000000#32 := by decide
theorem test_segread_m2_out_of_bounds : view (world [0x10000053#32] 5 4 3)
    (fun t => (t.fault.cause, t.fault.faultInfo, t.readReg 1)) =
      some (.segmentOffsetOutOfBounds, .identOffset 4#32 3#32, 5#32) := by decide
theorem test_segwrite_m5_own_code : view (world [0x20000053#32, 0#32] 0 1 0x70000000)
    (fun t => (t.mem.fetch 1#32, t.pc)) = some (some 0x70000000#32, 1#32) := by decide
theorem test_segwrite_m6 :
    view (world [0x20000053#32] 4 2 9) (fun t => (t.mem.word 4#32 2#32, t.mem.word 4#32 1#32)) =
      some (some 9#32, some 0#32) := by decide
/-- M7, M13: the size is read before the identifier is written; the identifier itself is a draw. -/
theorem test_segalloc_m13 : (after (exec (.segalloc 2 2) ((State.reset.writeReg 2 5#32)))).map
    (fun t => (t.mem.table.map (·.2), t.draws)) = some ([Segment.zeros 5], 1) := by decide
theorem test_segfree_m9 : view (world [0x90000003#32] 0 0 4)
    (fun t => (t.mem.live 4#32, t.readReg 3, t.mem.freeIds)) = some (false, 4#32, [4, 9]) := by decide
theorem test_segfree_m11_zero : view (world [0x90000003#32] 0 0 0) (fun t => (t.fault.cause, t.fault.faultInfo)) =
    some (.badDeallocate, .ident 0#32) := by decide
theorem test_out_o2 : view (world [0xA0000001#32] 255 0 0) (·.output) = some [0xFF#8] := by decide
theorem test_out_o3_out_of_range : view (world [0xA0000001#32] 256 0 0)
    (fun t => (t.fault.cause, t.fault.faultInfo, t.output)) = some (.outputOutOfRange, .value 256#32, []) := by decide
theorem test_in_o7 : view { world [0xB0000002#32] 0 0 0 with input := [.byte 0xFF] }
    (fun t => (t.readReg 2, t.input)) = some (0xFF#32, []) := by decide
theorem test_in_o6_end_of_stream : view (world [0xB0000002#32] 0 0 0) (·.readReg 2) = some 0xFFFFFFFF#32 := by decide
/-- A drawn answer (D21) is used up; the value it gives is free. -/
theorem test_in_drawn : (after (exec (.inp 2) { world [] 0 0 0 with inputAfter := .drawn 7 })).map (·.inputAfter) =
    some (.drawn 8) := by decide
theorem test_halt_q4 : view { world [0#32, 0#32, 0x70000000#32] 0 0 0 with pc := 2 } (fun t => (t.run, t.pc)) =
    some (.halted, 3#32) := by decide
theorem test_loadprog_q6_unchecked : view (world [0xC000000A#32] 0 0xFFFFFFFF 0) (·.pc) = some 0xFFFFFFFF#32 := by decide
theorem test_loadprog_q9_copies : view (world [0xC000000A#32] 4 0 0) (fun t => (t.mem.seg0, t.pc)) =
    some (Segment.zeros 3, 0#32) := by decide
theorem test_fetch_q2 : view { world [0#32] 0 0 0 with pc := 1 }
    (fun t => (t.fault, t.pc)) = some (⟨.fetchOutOfBounds, 1#32, none, .offset 1#32⟩, 1#32) := by decide
theorem test_illegal_q3 : view (world [0xE0000000#32] 0 0 0) (fun t => (t.fault, t.pc)) =
    some (⟨.illegalOpcode, 0#32, some 0xE0000000#32, .opcode 14⟩, 1#32) := by decide
theorem test_boot_big_endian : (State.boot [0xD2, 0x00, 0x00, 0x41]).map (·.mem.seg0.read 0) = some (some 0xD2000041#32) ∧
    State.boot [0xD2, 0x00, 0x00] = none := by decide
theorem test_with_fetch_word : view (State.reset.withFetchWord 32 0xD2000041) (·.readReg 1) = some 65#32 := by decide
theorem test_codes : FaultCause.none.code = 0 ∧ FaultCause.fetchOutOfBounds.code = 2 ∧
    FaultCause.allocExhausted.code = 9 := by decide

/-! ### Witnesses: a state and operands that meet each statement's hypotheses, clause by clause -/

theorem witness_OpcodeSelectsInstruction : (0xDFFFFFFF#32).toNat / 2 ^ 28 ≤ 13 ∧ (0#32).toNat / 2 ^ 28 ≤ 13 := by decide
theorem witness_LoadImmediateForm : (0xD3FFFFFF#32).toNat / 2 ^ 28 = 13 := by decide
theorem witness_DecodeOfEncode : Instr.WellFormed (.loadimm 7 0x01FFFFFF#32) ∧ Instr.WellFormed (.cmov 1 2 3) := by decide
theorem witness_EncodeOfDecodeIsCanonical : decode 0x0FFFFE53#32 = .ok (.cmov 1 2 3) := by decide
theorem witness_IgnoredBitsNeverMatter : decode 0xA0000001#32 = .ok (.out 1) ∧
    0xA00001C1#32 &&& usedBits (.out 1) = 0xA0000001#32 &&& usedBits (.out 1) := by decide

theorem witness_StepRunsDecodedInstruction :
    (world [] 0 0 0).run = .running ∧ (world [] 0 0 0).mem.fetch (world [] 0 0 0).pc = none ∧
    (world [0xE0000000#32] 0 0 0).mem.fetch 0#32 = some 0xE0000000#32 ∧
    decode 0xE0000000#32 = .error (.illegalOpcode 14) ∧
    (world [0x70000000#32] 0 0 0).mem.fetch 0#32 = some 0x70000000#32 ∧ decode 0x70000000#32 = .ok .halt ∧
    view (world [0xE0000000#32] 0 0 0) (·.run) = some .faulted := by decide

theorem witness_FetchIsBounded :
    (let s := { world [0#32, 0#32] 0 0 0 with pc := 2 }; s.run = .running ∧ s.mem.seg0.len ≤ s.pc.toNat) ∧
    (let s := { world [0#32, 0#32] 0 0 0 with pc := 1 }; s.run = .running ∧ s.pc.toNat < s.mem.seg0.len) := by decide

theorem witness_IllegalOpcodeFaults :
    (let s := world [0xE0000000#32] 0 0 0
     s.run = .running ∧ s.mem.fetch s.pc = some 0xE0000000#32 ∧ 13 < (0xE0000000#32).toNat / 2 ^ 28) ∧
    (let s := world [0xFFFFFFFF#32] 0 0 0
     s.run = .running ∧ s.mem.fetch s.pc = some 0xFFFFFFFF#32 ∧ 13 < (0xFFFFFFFF#32).toNat / 2 ^ 28) := by decide

theorem witness_NoStepOnceStopped : ({ world [0#32] 0 0 0 with run := .halted } : State).run = .halted ∧
    ({ world [0#32] 0 0 0 with run := .faulted } : State).run = .faulted := by decide

/-- A step of each outcome: a fetch fault, a decode fault, an instruction, LOADPROG completed and faulted. -/
theorem witness_NextPcOfEveryOutcome :
    (∀ ws ∈ [[], [0xE0000000#32], [0x30000053#32], [0xC000000A#32]],
      ∃ t, step (world ws 0 0 0) = .next t) ∧
    (∃ t, step (world [0xC000000A#32] 7 0 0) = .next t ∧ t.run = .faulted) ∧
    (∃ t, step (world [0xC000000A#32] 4 2 0) = .next t ∧ t.run ≠ .faulted) := by
  refine ⟨fun ws h => ?_, ⟨_, next_of_after (by decide), by decide⟩, ⟨_, next_of_after (by decide), by decide⟩⟩
  simp only [List.mem_cons, List.not_mem_nil, or_false] at h
  rcases h with rfl | rfl | rfl | rfl <;> exact ⟨_, next_of_after (by decide)⟩

theorem witness_exec_next : ∃ t, exec (.loadprog 1 2) (world [] 0 5 0) = .next t := ⟨_, next_of_after (by decide)⟩

/-- The invariant at a running state with a program. -/
theorem world_inv : (world [0x70000000#32] 0 0 0).Inv where
  mem := by decide
  record := ⟨by decide, by decide, by decide, by decide, by decide, by decide⟩

theorem witness_AdvanceNeverWraps : (world [0x70000000#32] 0 0 0).Inv ∧
    (world [0x70000000#32] 0 0 0).mem.fetch (world [0x70000000#32] 0 0 0).pc = some 0x70000000#32 :=
  ⟨world_inv, by decide⟩

theorem witness_CmovMovesOnNonZero : (world [] 9 7 0x80000000).readReg 3 ≠ 0#32 ∧ (world [] 9 7 0).readReg 3 = 0#32 := by decide
theorem witness_DivWritesQuotient : (world [] 0 7 1).readReg 3 ≠ 0#32 := by decide
theorem witness_DivideByZeroEndsTheRun :
    let s := world [0x50000053#32] 9 7 0
    s.run = .running ∧ s.mem.fetch s.pc = some 0x50000053#32 ∧ decode 0x50000053#32 = .ok (.div 1 2 3) ∧
      s.readReg 3 = 0#32 := by decide
theorem witness_LoadimmWritesImmediate : (0x01FFFFFF#32).toNat ≤ 0x01FFFFFF ∧
    (let s := world [0xDFFFFFFF#32] 0 0 0
     s.run = .running ∧ s.mem.fetch s.pc = some 0xDFFFFFFF#32 ∧ (0xDFFFFFFF#32).toNat / 2 ^ 28 = 13 ∧
      (7 : Reg).val = (0xDFFFFFFF#32).toNat / 2 ^ 25 % 8) := by decide
theorem witness_HaltEntersHalted :
    let s := world [0x7FFFFFFF#32] 0 0 0
    s.run = .running ∧ s.mem.fetch s.pc = some 0x7FFFFFFF#32 ∧ (0x7FFFFFFF#32).toNat / 2 ^ 28 = 7 := by decide
theorem witness_LoadprogZeroOnlyJumps : (world [] 0 5 0).readReg 1 = 0#32 := by decide
theorem witness_LoadprogReplacesSegmentZero :
    (world [] 4 5 0).readReg 1 ≠ 0#32 ∧ (world [] 4 5 0).mem.live ((world [] 4 5 0).readReg 1) = true := by decide
theorem witness_LoadprogOfUnmappedFaults :
    (world [] 5 5 0).readReg 1 ≠ 0#32 ∧ (world [] 5 5 0).mem.live ((world [] 5 5 0).readReg 1) = false := by decide

/-- The last word of segment 4, and of segment zero. -/
theorem witness_SegreadWritesTheWord :
    (let s := world [0#32] 0 4 2; s.mem.length (s.readReg 2) = some 3 ∧ (s.readReg 3).toNat < 3) ∧
    (let s := world [0#32] 0 0 0; s.mem.length (s.readReg 2) = some 1 ∧ (s.readReg 3).toNat < 1) := by decide
/-- An unmapped identifier, and the first offset beyond segment 4, for both instructions. -/
theorem witness_SegmentAccessFaults :
    (let s := world [] 6 6 0xFFFFFFFF
     s.readReg 2 ≠ 0#32 ∧ s.mem.live (s.readReg 2) = false ∧ s.readReg 1 ≠ 0#32 ∧ s.mem.live (s.readReg 1) = false) ∧
    (let s := world [] 0 4 3; s.mem.length (s.readReg 2) = some 3 ∧ 3 ≤ (s.readReg 3).toNat) ∧
    (let s := world [] 4 3 0; s.mem.length (s.readReg 1) = some 3 ∧ 3 ≤ (s.readReg 2).toNat) := by decide
theorem witness_SegwriteStoresTheWord :
    let s := world [0#32] 4 2 9
    s.mem.length (s.readReg 1) = some 3 ∧ (s.readReg 2).toNat < 3 := by decide

theorem world_someFree : (world [] 0 0 0).mem.SomeFree := ⟨1, by decide, by decide⟩

theorem witness_SegallocAllocates :
    (world [] 0 0 5).mem.wf ∧ (world [] 0 0 5).allocCanFail = false ∧ (world [] 0 0 5).mem.SomeFree :=
  ⟨by decide, by decide, world_someFree⟩

/-- A memory in which identifiers 1 to `n` are live. -/
def fullMemory (n : Nat) : Memory :=
  { seg0 := Segment.empty, table := (List.range n).map (fun i => (i + 1, Segment.zeros 0)), freeIds := [] }

theorem fullMemory_keys (n : Nat) : Assoc.keys (fullMemory n).table = (List.range n).map (· + 1) := by
  simp [Assoc.keys, fullMemory]

theorem fullMemory_wf {n : Nat} (h : n < 2 ^ 32) : (fullMemory n).wf := by
  refine ⟨Memory.wf_reset.1, ?_, ?_, List.Pairwise.nil, fun _ hi => absurd hi List.not_mem_nil⟩
  · rw [Assoc.Rising, fullMemory_keys, List.pairwise_map]
    exact (List.pairwise_lt_range).imp (fun hij => Nat.add_lt_add_right hij 1)
  · intro e he
    obtain ⟨i, hi, rfl⟩ := List.mem_map.mp he
    have := List.mem_range.mp hi
    exact ⟨by omega, by omega, Segment.wf_zeros (by decide)⟩

theorem not_someFree_of_length {m : Memory} (hw : m.wf) (h : m.table.length = 2 ^ 32 - 1) : ¬ m.SomeFree := by
  intro hf
  have hb := (Memory.hasFreeIdentifier_iff hw).mpr hf
  rw [Memory.hasFreeIdentifier, decide_eq_true_eq, h] at hb
  exact Nat.lt_irrefl _ hb

/-- A canonical memory in which every identifier is live. -/
theorem exists_fullMemory : ∃ m : Memory, m.wf ∧ ¬ m.SomeFree := by
  obtain ⟨n, hn⟩ : ∃ n : Nat, n = 2 ^ 32 - 1 := ⟨_, rfl⟩
  have hw : (fullMemory n).wf := fullMemory_wf (by omega)
  refine ⟨fullMemory n, hw, not_someFree_of_length hw ?_⟩
  rw [fullMemory, List.length_map, List.length_range, hn]

theorem witness_SegallocStuckWhenAllLive : ∃ s : State, s.mem.wf ∧ s.allocCanFail = false ∧ ¬ s.mem.SomeFree := by
  obtain ⟨m, hw, hn⟩ := exists_fullMemory
  exact ⟨State.reset.setMem m, hw, rfl, hn⟩

/-- With a free identifier, and with none. -/
theorem witness_SegallocCanBeRefused :
    (∃ s : State, s.mem.wf ∧ s.allocCanFail = true ∧ s.mem.SomeFree) ∧
    (∃ s : State, s.mem.wf ∧ s.allocCanFail = true ∧ ¬ s.mem.SomeFree) := by
  obtain ⟨m, hw, hn⟩ := exists_fullMemory
  exact ⟨⟨{ world [] 0 0 0 with allocCanFail := true }, by decide, rfl, world_someFree⟩,
    ⟨{ State.reset with mem := m, allocCanFail := true }, hw, rfl, hn⟩⟩

theorem witness_ExactlyFreeIdentifiersAreDrawn : (world [] 0 0 0).mem.wf ∧ (world [] 0 0 0).mem.SomeFree :=
  ⟨by decide, world_someFree⟩

theorem witness_SegfreeFrees : (world [] 0 0 4).mem.live ((world [] 0 0 4).readReg 3) = true := by decide
theorem witness_SegfreeOfNonLiveFaults : (world [] 0 0 0).readReg 3 = 0#32 ∧
    (world [] 0 0 12).mem.live ((world [] 0 0 12).readReg 3) = false := by decide
theorem witness_SegFreeContract : let m := (world [] 0 0 0).mem
    m.live 0#32 = false ∧ m.live 4#32 = true ∧ (9#32 ≠ 0#32 ∧ m.live 9#32 = false) := by decide
theorem witness_SegLoadMakesIndependentCopy : let m := (world [0#32, 1#32] 0 0 0).mem
    4#32 ≠ 0#32 ∧ m.live 4#32 = true ∧ m.live 5#32 = false ∧
    ((m.segLoad 4#32).toOption.bind (fun m' => (m'.segWrite 0#32 2#32 7#32).toOption)).isSome ∧
    ((m.segLoad 4#32).toOption.bind (fun m' => (m'.segWrite 4#32 2#32 7#32).toOption)).isSome := by decide
theorem witness_ReadAnswersLatestWrite :
    (∃ m', (world [0#32] 0 0 0).mem.segWrite 0#32 0#32 7#32 = .ok m') ∧ Memory.reset.wf ∧
    (∃ id m', Memory.reset.segAlloc false false 3#32 5#32 = some (.ok (id, m'))) :=
  ⟨⟨_, rfl⟩, by decide, ⟨_, _, rfl⟩⟩
theorem witness_ZeroSizeSegment :
    ∃ id m', Memory.reset.wf ∧ Memory.reset.segAlloc false false 3#32 0#32 = some (.ok (id, m')) :=
  ⟨_, _, by decide, rfl⟩
theorem witness_FetchSeesStoresAndLoads :
    (let s := world [0#32, 0#32] 0 1 5
     (∃ t, exec (.segwrite 1 2 3) s = .next t) ∧ s.readReg 1 = 0#32 ∧ (s.readReg 2).toNat < s.mem.seg0.len) ∧
    (let s := world [] 4 2 0
     (∃ t, exec (.loadprog 1 2) s = .next t) ∧ s.mem.live (s.readReg 1) = true) :=
  ⟨⟨⟨_, next_of_after (by decide)⟩, by decide, by decide⟩, ⟨⟨_, next_of_after (by decide)⟩, by decide⟩⟩
theorem witness_CanonicalMemoriesAreEqual : let m := (world [0#32, 5#32] 0 0 0).mem
    m.wf ∧ (∀ id, m.length id = m.length id) ∧ (∀ id off, m.word id off = m.word id off) ∧ m.freeIds = m.freeIds :=
  ⟨by decide, fun _ => rfl, fun _ _ => rfl, rfl⟩

theorem witness_OutAppendsTheByte : ((world [] 255 0 0).readReg 1).toNat ≤ 255 ∧ (world [] 255 0 0).outputRoom ≠ some 0 := by
  decide
theorem witness_OutOfRangeValueFaults : 255 < ((world [] 256 0 0).readReg 1).toNat := by decide
theorem witness_InWritesTheAnswer :
    ({ world [] 0 0 0 with input := [.byte 0xFF] } : State).input = .byte 0xFF :: [] ∧
    ({ world [] 0 0 0 with input := [.eos, .byte 1] } : State).input = .eos :: [.byte 1] ∧
    (world [] 0 0 0).input = [] ∧ (world [] 0 0 0).inputAfter = .endOfStream ∧
    ({ world [] 0 0 0 with inputAfter := .drawn 7 } : State).inputAfter = .drawn 7 := by decide
theorem witness_UnansweredIoHoldsTheStep :
    (let s := { world [] 255 0 0 with inputAfter := .noAnswer, outputRoom := some 0 }
     s.input = [] ∧ s.inputAfter = .noAnswer ∧ (s.readReg 1).toNat ≤ 255 ∧ s.outputRoom = some 0) := by decide
/-- An OUT that completes, an OUT that faults, and a step that is no OUT. -/
theorem witness_OutputIsTheSequenceOfOutBytes :
    decode 0xA0000001#32 = .ok (.out 1) ∧ (∀ c, decode 0x70000000#32 ≠ .ok (.out c)) ∧
    (∃ t, step (world [0xA0000001#32] 255 0 0) = .next t ∧ t.run ≠ .faulted) ∧
    (∃ t, step (world [0xA0000001#32] 256 0 0) = .next t ∧ t.run = .faulted) ∧
    (∃ t, step (world [0x70000000#32] 0 0 0) = .next t) :=
  ⟨by decide, by decide, ⟨_, next_of_after (by decide), by decide⟩, ⟨_, next_of_after (by decide), by decide⟩,
    ⟨_, next_of_after (by decide)⟩⟩

/-- A fetch fault and a later fault. -/
theorem witness_FaultsArePrecise :
    (∃ t, step (world [] 0 0 0) = .next t ∧ t.run = .faulted ∧ t.fault.cause = .fetchOutOfBounds) ∧
    (∃ t, step (world [0x50000053#32] 9 7 0) = .next t ∧ t.run = .faulted ∧ t.fault.cause ≠ .fetchOutOfBounds) :=
  ⟨⟨_, next_of_after (by decide), by decide, by decide⟩, ⟨_, next_of_after (by decide), by decide, by decide⟩⟩
theorem witness_RecordWrittenOnlyOnFault : ∃ t, step (world [0x70000000#32] 0 0 0) = .next t ∧ t.run ≠ .faulted :=
  ⟨_, next_of_after (by decide), by decide⟩
/-- A step that raises each cause an instruction raises; `ALLOC_EXHAUSTED` in a memory with no identifier left. -/
theorem witness_CauseNamesItsInstruction :
    view (world [] 0 0 0) (·.fault.cause) = some .fetchOutOfBounds ∧
    view (world [0xE0000000#32] 0 0 0) (·.fault.cause) = some .illegalOpcode ∧
    view (world [0x10000053#32] 0 4 3) (·.fault.cause) = some .segmentOffsetOutOfBounds ∧
    view (world [0x10000053#32] 0 6 3) (·.fault.cause) = some .segmentNotMapped ∧
    view (world [0x50000053#32] 0 6 0) (·.fault.cause) = some .divideByZero ∧
    view (world [0xA0000001#32] 256 0 0) (·.fault.cause) = some .outputOutOfRange ∧
    view (world [0x90000003#32] 0 0 0) (·.fault.cause) = some .badDeallocate := by decide
theorem witness_alloc_exhausted : ∃ s t : State, exec (.segalloc 1 2) s = .next t ∧ t.run = .faulted ∧
    t.fault.cause = .allocExhausted := by
  obtain ⟨m, hw, hf⟩ := exists_fullMemory
  have hn : m.hasFreeIdentifier = false := by
    rw [← Bool.not_eq_true, Memory.hasFreeIdentifier_iff hw]
    exact hf
  refine ⟨{ State.reset with mem := m, allocCanFail := true },
    State.raise { State.reset with mem := m, allocCanFail := true } ⟨.allocExhausted, .size 0#32⟩, ?_, rfl, rfl⟩
  simp only [exec, execSegalloc, Memory.segAlloc, hn]
  rfl
/-- Every stop of `step`, but `allocStuck`, whose hypotheses are those of `witness_SegallocStuckWhenAllLive`. -/
theorem witness_StopsOnlyWhereSpecHasNoStep :
    (world [0xB0000001#32] 255 0 0).mem.wf ∧
    stop (step { world [] 0 0 0 with run := .halted }) = some .halted ∧
    stop (step { world [] 0 0 0 with run := .faulted }) = some .faulted ∧
    stop (step { world [0xB0000001#32] 0 0 0 with inputAfter := .noAnswer }) = some .inputHeld ∧
    stop (step { world [0xA0000001#32] 255 0 0 with outputRoom := some 0 }) = some .outputHeld := by decide

theorem witness_RegisterFrame : (world [] 9 7 0).run = .running ∧ destination (.div 1 2 3) ≠ some 2 ∧
    ∃ t, exec (.div 1 2 3) (world [] 9 7 0) = .next t ∧ t.run = .faulted :=
  ⟨by decide, by decide, ⟨_, next_of_after (by decide), by decide⟩⟩
/-- Each storing form, and one that stores nothing, at a word it leaves alone. -/
theorem witness_MemoryFrame :
    (∃ t, exec (.segwrite 1 2 3) (world [] 4 2 9) = .next t ∧
      ¬ (4#32 = (world [] 4 2 9).readReg 1 ∧ 1#32 = (world [] 4 2 9).readReg 2)) ∧
    (∃ t, exec (.segfree 3) (world [] 0 0 4) = .next t ∧ 0#32 ≠ (world [] 0 0 4).readReg 3) ∧
    (∃ t, exec (.loadprog 1 2) (world [] 4 0 0) = .next t ∧
      ¬ (4#32 = 0#32 ∧ (world [] 4 0 0).readReg 1 ≠ 0#32)) ∧
    (∃ t, exec (.add 1 2 3) (world [] 0 0 0) = .next t) :=
  ⟨⟨_, next_of_after (by decide), by decide⟩, ⟨_, next_of_after (by decide), by decide⟩,
    ⟨_, next_of_after (by decide), by decide⟩, ⟨_, next_of_after (by decide)⟩⟩
/-- SEGALLOC, whose identifier is a draw and never 0: segment zero is a segment it leaves alone. -/
theorem witness_MemoryFrame_segalloc : ∃ t, exec (.segalloc 2 3) State.reset = .next t ∧ 0#32 ≠ t.readReg 2 := by
  have hf : State.reset.mem.hasFreeIdentifier = true := by decide
  refine ⟨((State.reset.setMem (State.reset.mem.allocate (State.reset.mem.chooseIdentifier
    (Config.freeIdentifier 0)) 0#32)).countDraw).writeReg 2 (State.reset.mem.chooseIdentifier (Config.freeIdentifier 0)),
    ?_, ?_⟩
  · simp only [exec, execSegalloc, Memory.segAlloc, hf]
    rfl
  · rw [State.readReg_writeReg_same]
    exact Ne.symm (Memory.chooseIdentifier_spec Memory.wf_reset hf _).1
theorem witness_EnvironmentFrame : ∃ t, exec (.inp 2) { world [] 0 0 0 with input := [.byte 1] } = .next t :=
  ⟨_, next_of_after (by decide)⟩

/-- A LOADPROG that completes, one that faults, and an instruction that is no LOADPROG. -/
theorem witness_NoInstructionReadsPc :
    (∃ t, exec (.loadprog 1 2) (world [] 4 2 0) = .next t ∧ (world [] 4 2 0).mem.live ((world [] 4 2 0).readReg 1) = true) ∧
    (∃ t, exec (.loadprog 1 2) (world [] 7 2 0) = .next t ∧ (world [] 7 2 0).readReg 1 ≠ 0#32 ∧
      (world [] 7 2 0).mem.live ((world [] 7 2 0).readReg 1) = false) ∧
    (∃ t, exec (.add 1 2 3) (world [] 0 5 6) = .next t ∧ ∀ b c, Instr.add 1 2 3 ≠ .loadprog b c) :=
  ⟨⟨_, next_of_after (by decide), by decide⟩, ⟨_, next_of_after (by decide), by decide, by decide⟩,
    ⟨_, next_of_after (by decide), nofun⟩⟩

theorem witness_ImageIsBigEndian : ∃ s, State.boot [0xD2, 0x00, 0x00, 0x41] = some s ∧
    ([0xD2, 0x00, 0x00, 0x41] : List Byte)[4 * 0]? = some 0xD2 ∧
    ([0xD2, 0x00, 0x00, 0x41] : List Byte)[4 * 0 + 1]? = some 0x00 ∧
    ([0xD2, 0x00, 0x00, 0x41] : List Byte)[4 * 0 + 2]? = some 0x00 ∧
    ([0xD2, 0x00, 0x00, 0x41] : List Byte)[4 * 0 + 3]? = some 0x41 := ⟨_, rfl, by decide⟩
theorem witness_BootedMachine : (∃ s, State.boot [] = some s) ∧ (∃ s, State.boot [0xD2, 0x00, 0x00, 0x41] = some s) :=
  ⟨⟨_, rfl⟩, ⟨_, rfl⟩⟩
theorem witness_StepKeepsInvariant : ∃ t, (world [0x70000000#32] 0 0 0).Inv ∧ step (world [0x70000000#32] 0 0 0) = .next t :=
  ⟨_, world_inv, next_of_after (by decide)⟩
theorem witness_IdiomsCompute : (4 : Reg) ≠ 2 ∧ (4 : Reg) ≠ 1 ∧ (5 : Reg) ≠ 4 ∧ (5 : Reg) ≠ 2 ∧ (4 : Reg) ≠ 3 := by decide

/-! ### Assembler text and idioms (R92, R93; program P4: 58 - 3 = 55) -/

theorem test_assemble : assemble (.loadimm 1 65#32) = some 0xD2000041#32 ∧ assemble (.loadimm 1 0x02000000#32) = none := by
  decide
theorem test_instrText : instrText (.segread 5 2 3) = "SEGREAD r5, r2, r3" ∧ instrText (.loadimm 1 65#32) = "LOADIMM r1, #65" := by
  constructor <;> rfl
theorem test_idiomSub : (after (execList (idiomSub 4 5 6 1 2) (world [] 58 3 0))).map (·.readReg 6) = some 55#32 := by decide

end Sys2Proof.Tests
end

section
/-! PROOFS. The memory port's contract (20_memory.md): SegFree (R52), SegLoad (R53) and the program image (R56). -/

namespace Sys2Proof.Machine

/-! ### Which segment an identifier names decides its words, its length and its liveness -/

theorem Memory.word_eq_of_segment_eq {m m' : Memory} {id id' : Word} (h : m'.segment id' = m.segment id) (off : Word) :
    m'.word id' off = m.word id off := by
  rw [Memory.word, h, Memory.word]

theorem Memory.length_eq_of_segment_eq {m m' : Memory} {id id' : Word} (h : m'.segment id' = m.segment id) :
    m'.length id' = m.length id := by
  rw [Memory.length, h, Memory.length]

theorem Memory.live_eq_segment_isSome (m : Memory) {id : Word} (h0 : id ≠ 0#32) : m.live id = (m.segment id).isSome := by
  rw [Bool.eq_iff_iff, Memory.segment_isSome]
  simp [h0]

theorem Memory.live_zero (m : Memory) : m.live 0#32 = false := rfl

/-! ### SegWrite: the unmapped identifier, and the frame (R49) -/

theorem Memory.segWrite_of_unmapped {m : Memory} {id : Word} (off v : Word) (h : m.segment id = none) :
    m.segWrite id off v = .error ⟨.segmentNotMapped, .ident id⟩ := by
  simp [Memory.segWrite, h]

/-- A `SegWrite` that is answered leaves every other identifier's segment alone. -/
theorem Memory.segment_segWrite_other {m m' : Memory} {id off v q : Word} (h : m.segWrite id off v = .ok m')
    (hq : q ≠ id) : m'.segment q = m.segment q := by
  rcases m.segWrite_spec id off v with ⟨_, he⟩ | ⟨_, _, _, he⟩ | ⟨g, _, _, hok⟩
  · simp [he] at h
  · simp [he] at h
  · rw [hok] at h
    cases h
    rw [Memory.segment_setSegment, if_neg hq]

/-! ### SegFree (R52) -/

theorem Memory.not_live_of_segFree {m m' : Memory} {id : Word} (h0 : id ≠ 0#32) (h : m.segFree id = .ok m') :
    m'.live id = false := by
  rw [Memory.live_eq_segment_isSome m' h0, Memory.segment_segFree h, if_pos rfl, Option.isSome_none]

/-- Settles O36: a freed identifier names no segment, so the draw may give it again (R50), and an identifier that names no
segment is turned down by the liveness check of each transaction. -/
theorem segFreeContract : Obligations.SegFreeContract := by
  intro m id
  refine ⟨?_, fun hl => ?_, fun h0 hl off v => ?_⟩
  · rintro (rfl | hl)
    · exact Memory.segFree_of_not_live m.live_zero
    · exact Memory.segFree_of_not_live hl
  · have h0 := ((Memory.live_iff m id).mp hl).1
    have hok := Memory.segFree_of_live hl
    refine ⟨_, hok, ?_, Memory.chooseIdentifier_drawn h0 (Memory.not_live_of_segFree h0 hok)⟩
    rw [Assoc.get_del, if_pos rfl]
  · have hs := (Memory.segment_eq_none m id).mpr ⟨h0, hl⟩
    exact ⟨Memory.segRead_of_unmapped off hs, Memory.segWrite_of_unmapped off v hs, Memory.segLoad_of_not_live h0 hl⟩

/-! ### SegLoad (R53) -/

/-- Settles O37: after the load both identifiers name the source's segment (`segment_segLoad`), and a write to one of two
identifiers leaves the other's segment alone (`segment_segWrite_other`). -/
theorem segLoadMakesIndependentCopy : Obligations.SegLoadMakesIndependentCopy := by
  intro m id h0
  refine ⟨Memory.segLoad_of_not_live h0, fun hl => ?_⟩
  obtain ⟨g, hg⟩ := Option.isSome_iff_exists.mp ((m.segment_isSome id).mpr (.inr hl))
  have hok := Memory.segLoad_of_live h0 hg
  have hcopy := (Memory.segment_segLoad h0 hok 0#32).trans (if_pos rfl)
  have hsource := (Memory.segment_segLoad h0 hok id).trans (if_neg h0)
  refine ⟨_, hok, Memory.length_eq_of_segment_eq hcopy, Memory.word_eq_of_segment_eq hcopy, ?_, hsource, ?_, ?_⟩
  · rw [Memory.live_eq_segment_isSome _ h0, hsource, hg, Option.isSome_some]
  · exact fun off v m'' hw => Memory.segment_segWrite_other hw h0
  · exact fun off v m'' hw => Memory.segment_segWrite_other hw h0.symm

/-! ### The image (R56) -/

/-- Settles O55: the booted segment zero is the segment of the image's words (`State.boot_some`), and `imageWords_spec` says
which words these are. -/
theorem imageIsBigEndian : Obligations.ImageIsBigEndian := by
  intro image s hboot
  obtain ⟨ws, hws, -, rfl⟩ := State.boot_some hboot
  obtain ⟨hlen, hword⟩ := imageWords_spec image ws hws
  refine ⟨hlen, fun k b0 b1 b2 b3 h0 h1 h2 h3 => ?_⟩
  calc (Segment.ofWords ws).read k
    _ = ws[k]? := Segment.read_ofWords ws k
    _ = some (b0 ++ b1 ++ b2 ++ b3) := hword k b0 b1 b2 b3 h0 h1 h2 h3

end Sys2Proof.Machine
end

section
/-! PROOFS. The instruction encoding (30_encoding.md): the raw slices of a word as numbers (R85), the instruction an opcode
selects (R81), and the word put together again from its fields (R83). -/

namespace Sys2Proof

/-! ### The raw slices as numbers (R85) -/

@[simp] theorem toNat_slice (w : Word) (lo n : Nat) : (slice w lo n).toNat = w.toNat / 2 ^ lo % 2 ^ n := by
  simp [slice, Nat.shiftRight_eq_div_pow]

@[simp] theorem regField_val (w : Word) (lo : Nat) : (regField w lo).val = w.toNat / 2 ^ lo % 8 := toNat_slice w lo 3

@[simp] theorem immField_toNat (w : Word) : (immField w).toNat = w.toNat % 2 ^ 25 := by
  have hlt : w.toNat % 2 ^ 25 < 2 ^ 32 := (Nat.mod_lt _ (by decide)).trans (by decide)
  rw [immField, BitVec.toNat_setWidth, toNat_slice, Nat.pow_zero, Nat.div_one, Nat.mod_eq_of_lt hlt]

/-- The opcode is the top field: nothing of the word lies above it. -/
theorem fields_op_toNat (w : Word) : (fields w).op.toNat = w.toNat / 2 ^ 28 := by
  have hlt : w.toNat / 2 ^ 28 < 2 ^ 4 := Nat.div_lt_of_lt_mul w.isLt
  exact (toNat_slice w 28 4).trans (Nat.mod_eq_of_lt hlt)

theorem fields_legal_iff (w : Word) : (fields w).legal = true ↔ w.toNat / 2 ^ 28 ≤ 13 := by
  rw [Fields.legal, decide_eq_true_iff, fields_op_toNat]

/-- Settles O2: each raw slice is a quotient by its lowest bit's weight, reduced to its width (`toNat_slice`). -/
theorem rawSlicesAndLegal : Obligations.RawSlicesAndLegal := by
  intro w
  have hc : (fields w).c.val = w.toNat % 8 := by
    rw [fields, regField_val, Nat.pow_zero, Nat.div_one]
  exact ⟨fields_op_toNat w, regField_val w 6, regField_val w 3, hc, regField_val w 25, immField_toNat w,
    fields_legal_iff w⟩

/-! ### The opcode of the selected instruction (R81, R86) -/

theorem Fields.opcode_of_selectAt {f : Fields} {op : Nat} {i : Instr} (h : f.selectAt op = .ok i) : i.opcode = op := by
  unfold Fields.selectAt at h
  split at h <;> cases h <;> rfl

theorem opcode_of_decode {w : Word} {i : Instr} (h : decode w = .ok i) : i.opcode = w.toNat / 2 ^ 28 :=
  (Fields.opcode_of_selectAt h).trans (fields_op_toNat w)

/-- Settles O3: a word of opcode 0 to 13 decodes (`decode_cases`), and what it decodes to has the word's opcode. -/
theorem opcodeSelectsInstruction : Obligations.OpcodeSelectsInstruction := by
  intro w hw
  rcases decode_cases w with ⟨i, hi, _⟩ | ⟨_, hop⟩
  · exact ⟨i, hi, opcode_of_decode hi⟩
  · rw [fields_op_toNat] at hop
    omega

/-! ### A field put back in its place is the word masked to the field (R82, R83, R91) -/

theorem slice_shiftLeft (w : Word) (lo n : Nat) :
    (slice w lo n).setWidth 32 <<< lo = w &&& ((BitVec.allOnes n).setWidth 32 <<< lo) := by
  apply BitVec.eq_of_getLsbD_eq
  intro i hi
  by_cases hlo : i < lo
  · simp [hlo]
  · have hback : lo + (i - lo) = i := by omega
    by_cases hn : i - lo < n <;> simp [slice, hi, hlo, hn, hback]

theorem placeReg_regField (w : Word) (lo : Nat) : placeReg (regField w lo) lo = w &&& (7#32 <<< lo) := by
  rw [placeReg, regField, BitVec.ofNat_toNat]
  exact slice_shiftLeft w lo 3

theorem placeOp_fields_op (w : Word) : placeOp (fields w).op.toNat = w &&& 0xF0000000#32 := by
  rw [placeOp, BitVec.ofNat_toNat]
  exact slice_shiftLeft w 28 4

theorem immField_eq_and (w : Word) : immField w = w &&& 0x01FFFFFF#32 := by
  rw [← BitVec.shiftLeft_zero (immField w)]
  exact slice_shiftLeft w 0 25

/-- The three fields of the load-immediate form cover the word: it has no unused bits (R83). -/
theorem encLI_fields {w : Word} (hop : (fields w).op.toNat = 13) : encLI (fields w).la (fields w).imm = w := by
  have hmask : 0xF0000000#32 ||| 7#32 <<< 25 ||| 0x01FFFFFF#32 = BitVec.allOnes 32 := by decide
  calc encLI (fields w).la (fields w).imm
    _ = placeOp (fields w).op.toNat ||| placeReg (regField w 25) 25 ||| immField w := by rw [hop]; rfl
    _ = w &&& 0xF0000000#32 ||| w &&& (7#32 <<< 25) ||| w &&& 0x01FFFFFF#32 := by
      rw [placeOp_fields_op, placeReg_regField, immField_eq_and]
    _ = w &&& (0xF0000000#32 ||| 7#32 <<< 25 ||| 0x01FFFFFF#32) := by simp only [BitVec.and_or_distrib_left]
    _ = w := by rw [hmask, BitVec.and_allOnes]

/-- Settles O4: opcode 13 selects LOADIMM with the slices LA and imm, and its three fields give the word back
(`encLI_fields`). -/
theorem loadImmediateForm : Obligations.LoadImmediateForm := by
  intro w hw
  have hop : (fields w).op.toNat = 13 := (fields_op_toNat w).trans hw
  exact ⟨(fields w).la, (fields w).imm, decode_of_op hop, regField_val w 25, immField_toNat w, encLI_fields hop⟩

end Sys2Proof
end

section
/-! PROOFS. The ALU (41_alu.md): the laws of its functions (R124, R126, R130) and LOADIMM as a term and as a step (R131).
The rules that other instructions share are stated first: a register write changes one register, and a step runs what the
fetched word decodes to. -/

namespace Sys2Proof.Machine

/-! ### Shared rules -/

theorem State.writesOnly_writeReg (s : State) (r : Reg) (v : Word) : WritesOnly s (s.writeReg r v) r v :=
  ⟨s.readReg_writeReg_same r v, fun _ hq => s.readReg_writeReg_other v hq, s.writeReg_restore r v⟩

theorem step_of_decode {s : State} {w : Word} {i : Instr} (hrun : s.run = .running) (hfetch : s.mem.fetch s.pc = some w)
    (hdec : decode w = .ok i) : step s = exec i s.advance := by
  simp only [step, hrun, hfetch, hdec]

/-! ### The ALU functions (R124, R126, R130) -/

theorem aluNand_getLsbD (x y : Word) {n : Nat} (hn : n < 32) :
    (aluNand x y).getLsbD n = !(x.getLsbD n && y.getLsbD n) := by
  rw [aluNand, BitVec.getLsbD_not, BitVec.getLsbD_and, decide_eq_true hn, Bool.true_and]

/-- Settles O15: `aluAdd` and `aluMul` are the word operations, which agree with addition and multiplication modulo 2^32 in
both readings; the bits of `aluNand` are `aluNand_getLsbD`. -/
theorem aluLaws : Obligations.AluLaws := by
  intro x y
  refine ⟨BitVec.toNat_add x y, BitVec.toInt_add x y, BitVec.toNat_mul x y, BitVec.toInt_mul x y, rfl, fun n hn => ?_⟩
  rw [aluNand_getLsbD x y hn, Bool.not_eq_true', Bool.and_eq_false_iff]

/-! ### LOADIMM (R131) -/

theorem exec_loadimm (s : State) (la : Reg) {imm : Word} (h : immediateFits imm) :
    exec (.loadimm la imm) s = .next (s.writeReg la imm) := by
  rw [exec, execLoadimm, immediate, immField_of_fits h]

theorem immField_eq_ofNat (w : Word) : immField w = BitVec.ofNat 32 (w.toNat % 2 ^ 25) := by
  rw [← immField_toNat, BitVec.ofNat_toNat, BitVec.setWidth_eq]

/-- Settles O22: an immediate that fits its field is written as it stands (`exec_loadimm`), and the one a fetched word
holds always fits (`immediateFits_immField`). -/
theorem loadimmWritesImmediate : Obligations.LoadimmWritesImmediate := by
  refine ⟨fun s la imm hfits => ⟨_, exec_loadimm s la hfits, s.writesOnly_writeReg la imm⟩, ?_⟩
  intro s w la hrun hfetch hop hla
  have hreg : (fields w).la = la := Fin.ext ((regField_val w 25).trans hla.symm)
  have hdec : decode w = .ok (.loadimm la (immField w)) := by
    rw [decode_of_op ((fields_op_toNat w).trans hop), ← hreg]
    rfl
  have hstep : step s = .next (s.advance.writeReg la (immField w)) := by
    rw [step_of_decode hrun hfetch hdec, exec_loadimm s.advance la (immediateFits_immField w)]
  rw [← immField_eq_ofNat w]
  exact ⟨_, hstep, s.advance.writesOnly_writeReg la (immField w)⟩

end Sys2Proof.Machine
end

section
/-! PROOFS. The step inverted once (40_sequencing.md R101), and the invariant that every step keeps (R29, R30, R46, R47). -/

namespace Sys2Proof.Machine

/-! ### The outcomes of a step -/

theorem Completes.run_ne_faulted {i : Instr} {s t : State} (h : Completes s i t) (hrun : s.run = .running) :
    t.run ≠ .faulted := by
  rcases h.fault_eq.2 with ht | ht
  · rw [ht, hrun]; decide
  · rw [ht]; decide

/-- The outcomes of a step (R101), with the state each leaves: `step_cases` with the instruction's own outcome taken apart. -/
inductive StepOutcome (s : State) : State → Prop where
  | fetchFault : s.mem.fetch s.pc = none → StepOutcome s s.raiseFetchFault
  | decodeFault {w : Word} : s.mem.fetch s.pc = some w →
      decode w = .error (.illegalOpcode (fields w).op) → 13 < (fields w).op.toNat →
      StepOutcome s (s.advance.raise ⟨.illegalOpcode, .opcode (fields w).op⟩)
  | completes {w : Word} {i : Instr} {t : State} : s.mem.fetch s.pc = some w → decode w = .ok i →
      Completes s.advance i t → StepOutcome s t
  | faults {w : Word} {i : Instr} {e : FaultEvent} : s.mem.fetch s.pc = some w → decode w = .ok i →
      Faults s.advance i e → StepOutcome s (s.advance.raise e)

theorem run_of_step {s t : State} (h : step s = .next t) : s.run = .running := (step_cases h).1

theorem stepOutcome_of_step {s t : State} (h : step s = .next t) : StepOutcome s t := by
  rcases (step_cases h).2 with ⟨hw, rfl⟩ | ⟨w, _, hw, hd, rfl, hop, rfl⟩ | ⟨w, i, hw, hd, hx⟩
  · exact .fetchFault hw
  · exact .decodeFault hw hd hop
  · rcases exec_cases hx with hc | ⟨e, he, rfl⟩
    · exact .completes hw hd hc
    · exact .faults hw hd he

/-- A step that leaves the machine `FAULTED` is a fetch fault before the advance or a raise after it. -/
theorem raise_of_step_faulted {s t : State} (h : step s = .next t) (hf : t.run = .faulted) :
    (s.mem.fetch s.pc = none ∧ t = s.raiseFetchFault) ∨
    (∃ w e, s.mem.fetch s.pc = some w ∧ e.cause ≠ .fetchOutOfBounds ∧ t = s.advance.raise e) := by
  have hrun := run_of_step h
  cases stepOutcome_of_step h with
  | fetchFault hw => exact .inl ⟨hw, rfl⟩
  | decodeFault hw _ _ => exact .inr ⟨_, ⟨.illegalOpcode, _⟩, hw, nofun, rfl⟩
  | completes _ _ hc => exact absurd hf (hc.run_ne_faulted hrun)
  | faults hw _ he => exact .inr ⟨_, _, hw, he.event.2.1, rfl⟩

/-! ### The fault record agrees with the state (R29, R30, R171) -/

theorem FaultRecord.agrees_of_none {s : State} (hc : s.fault.cause = .none) (hrun : s.run ≠ .faulted) :
    FaultRecord.Agrees s where
  none_iff := iff_of_true hc hrun
  info := by rw [hc]; rfl
  pc_of_fetch h := by rw [hc] at h; cases h
  pc_of_other h := absurd h hrun
  word h := absurd h hrun
  word_none h := absurd h hrun

theorem FaultRecord.agrees_raiseFetchFault {s : State} (hw : s.mem.fetch s.pc = none) :
    FaultRecord.Agrees s.raiseFetchFault where
  none_iff := iff_of_false nofun (fun h => h rfl)
  info := rfl
  pc_of_fetch _ := rfl
  pc_of_other _ h := absurd rfl h
  word _ := hw.symm
  word_none _ := iff_of_true rfl rfl

/-- A raise after the advance is charged to the word that was fetched: it is read back where it was (log 8). -/
theorem FaultRecord.agrees_raise_advance {s : State} {w : Word} {e : FaultEvent} (hw : s.mem.fetch s.pc = some w)
    (hnone : e.cause ≠ .none) (hfetch : e.cause ≠ .fetchOutOfBounds) (hinfo : e.cause.infoMatches e.info = true) :
    FaultRecord.Agrees (s.advance.raise e) where
  none_iff := iff_of_false hnone (fun h => h rfl)
  info := hinfo
  pc_of_fetch h := absurd h hfetch
  pc_of_other _ _ := by simp
  word _ := rfl
  word_none _ := by simp [hw, hfetch]

/-- Settles O58, by the outcomes of a step: a completion keeps the memory canonical (`Completes.wf`) and writes no record,
and each fault leaves the memory alone and writes a record that agrees. -/
theorem stepKeepsInvariant : Obligations.StepKeepsInvariant := by
  intro s t hinv h
  have hrun := run_of_step h
  cases stepOutcome_of_step h with
  | fetchFault hw => exact ⟨hinv.mem, FaultRecord.agrees_raiseFetchFault hw⟩
  | decodeFault hw _ hop =>
    exact ⟨hinv.mem, FaultRecord.agrees_raise_advance hw nofun nofun (decide_eq_true hop)⟩
  | completes _ _ hc =>
    have hcause : s.fault.cause = .none := hinv.record.none_iff.mpr (by rw [hrun]; decide)
    have hkept : t.fault = s.fault := hc.fault_eq.1
    exact ⟨hc.wf hinv.mem, FaultRecord.agrees_of_none (hkept ▸ hcause) (hc.run_ne_faulted hrun)⟩
  | faults hw _ he =>
    obtain ⟨hnone, hfetch, -, -, hinfo⟩ := he.event
    exact ⟨hinv.mem, FaultRecord.agrees_raise_advance hw hnone hfetch hinfo⟩

/-- Settles O57: the memory of no segment is canonical, and no fault has been taken. -/
theorem resetMeetsInvariant : Obligations.ResetMeetsInvariant :=
  ⟨Memory.wf_reset, FaultRecord.agrees_of_none rfl (by decide)⟩

end Sys2Proof.Machine
end

section
/-! PROOFS. The encoder and the decoder agree (30_encoding.md R88 to R92): round trips both ways, and the bits that no form
uses. -/

namespace Sys2Proof

/-- Settles O5: one round trip per constructor. -/
theorem decodeOfEncode : Obligations.DecodeOfEncode := by
  intro i
  cases i with
  | cmov a b c => exact Laws.RoundTrip.cmov a b c
  | segread a b c => exact Laws.RoundTrip.segread a b c
  | segwrite a b c => exact Laws.RoundTrip.segwrite a b c
  | add a b c => exact Laws.RoundTrip.add a b c
  | mul a b c => exact Laws.RoundTrip.mul a b c
  | div a b c => exact Laws.RoundTrip.div a b c
  | nand a b c => exact Laws.RoundTrip.nand a b c
  | halt => exact Laws.RoundTrip.halt
  | segalloc b c => exact Laws.RoundTrip.segalloc b c
  | segfree c => exact Laws.RoundTrip.segfree c
  | out c => exact Laws.RoundTrip.out c
  | inp c => exact Laws.RoundTrip.inp c
  | loadprog b c => exact Laws.RoundTrip.loadprog b c
  | loadimm la imm => exact Laws.RoundTrip.loadimm la imm

/-! ### The encoding of a decoded word (R89) -/

/-- A three-register word whose fields are each the word masked, is the word masked by all of them: an unused field has the
mask 0. -/
theorem enc3_eq_and {w ma mb mc : Word} {op : Nat} {a b c : Reg} (hop : placeOp op = w &&& 0xF0000000#32)
    (ha : placeReg a 6 = w &&& ma) (hb : placeReg b 3 = w &&& mb) (hc : placeReg c 0 = w &&& mc) :
    enc3 op a b c = w &&& (0xF0000000#32 ||| ma ||| mb ||| mc) := by
  simp only [enc3, hop, ha, hb, hc, BitVec.and_or_distrib_left]

theorem placeReg_zero (w : Word) (lo : Nat) : placeReg 0 lo = w &&& 0#32 := by
  simp [placeReg]

theorem placeOp_opcode {w : Word} {i : Instr} (h : decode w = .ok i) : placeOp i.opcode = w &&& 0xF0000000#32 := by
  rw [opcode_of_decode h, ← fields_op_toNat, placeOp_fields_op]

/-- What a word decodes to is what its fields select at that instruction's own opcode. -/
theorem selectAt_opcode {w : Word} {i : Instr} (h : decode w = .ok i) : (fields w).selectAt i.opcode = .ok i := by
  rwa [opcode_of_decode h, ← fields_op_toNat]

theorem wellFormed_of_decode {w : Word} {i : Instr} (h : decode w = .ok i) : i.WellFormed := by
  have hselect := selectAt_opcode h
  cases i with
  | loadimm => cases hselect; exact decide_eq_true (immediateFits_immField w)
  | _ => rfl

theorem encode_of_decode {w : Word} {i : Instr} (h : decode w = .ok i) : encode i = w &&& usedBits i := by
  have hselect := selectAt_opcode h
  have hop := placeOp_opcode h
  have ha : placeReg (fields w).a 6 = w &&& (7#32 <<< 6) := placeReg_regField w 6
  have hb : placeReg (fields w).b 3 = w &&& (7#32 <<< 3) := placeReg_regField w 3
  have hc : placeReg (fields w).c 0 = w &&& (7#32 <<< 0) := placeReg_regField w 0
  have unused := placeReg_zero w
  cases i with
  | cmov | segread | segwrite | add | mul | div | nand => cases hselect; exact enc3_eq_and hop ha hb hc
  | halt => exact enc3_eq_and hop (unused 6) (unused 3) (unused 0)
  | segalloc | loadprog => cases hselect; exact enc3_eq_and hop (unused 6) hb hc
  | segfree | out | inp => cases hselect; exact enc3_eq_and hop (unused 6) (unused 3) hc
  | loadimm =>
    cases hselect
    have hop13 : (fields w).op.toNat = 13 := (fields_op_toNat w).trans (opcode_of_decode h).symm
    exact (encLI_fields hop13).trans BitVec.and_allOnes.symm

/-- Settles O6: each form puts its fields back where they were, and an unused field back as 0 (`enc3_eq_and`). -/
theorem encodeOfDecodeIsCanonical : Obligations.EncodeOfDecodeIsCanonical :=
  fun _ _ h => ⟨wellFormed_of_decode h, encode_of_decode h⟩

/-! ### The ignored bits (R89) -/

/-- The used bits of the instructions of an opcode: the mask of its row of R87. -/
def rowMask (op : Nat) : Word :=
  if op ≤ 6 then 0xF00001FF else if op = 7 then 0xF0000000 else if op = 8 ∨ op = 12 then 0xF000003F
  else if op ≤ 11 then 0xF0000007 else 0xFFFFFFFF

theorem usedBits_eq_rowMask (i : Instr) : usedBits i = rowMask i.opcode := by
  cases i <;> rfl

theorem Instr.opcode_lt (i : Instr) : i.opcode < 14 := by
  cases i <;> simp [opcode]

theorem rowMask_and_opcode : ∀ op < 14, rowMask op &&& 0xF0000000#32 = 0xF0000000#32 := by decide

theorem usedBits_and_opcode (i : Instr) : usedBits i &&& 0xF0000000#32 = 0xF0000000#32 := by
  rw [usedBits_eq_rowMask, rowMask_and_opcode _ i.opcode_lt]

theorem fields_op_and (w : Word) : (fields (w &&& 0xF0000000#32)).op = (fields w).op := by
  have hmask : (0xF0000000#32).extractLsb' 28 4 = BitVec.allOnes 4 := by decide
  calc (w &&& 0xF0000000#32).extractLsb' 28 4
    _ = w.extractLsb' 28 4 &&& BitVec.allOnes 4 := by rw [BitVec.extractLsb'_and, hmask]
    _ = w.extractLsb' 28 4 := BitVec.and_allOnes

theorem fields_op_of_agree {w w' : Word} {i : Instr} (h : w' &&& usedBits i = w &&& usedBits i) :
    (fields w').op = (fields w).op := by
  have hop : w' &&& 0xF0000000#32 = w &&& 0xF0000000#32 := by
    rw [← usedBits_and_opcode i, ← BitVec.and_assoc, h, BitVec.and_assoc]
  rw [← fields_op_and w', hop, fields_op_and]

/-- Settles O7: the other word has the same opcode, so it decodes to an instruction of the same row; both instructions have
the same canonical word (O6), and a canonical word decodes to one instruction (O5). -/
theorem ignoredBitsNeverMatter : Obligations.IgnoredBitsNeverMatter := by
  intro w w' i h hagree
  have hopcode : i.opcode = (fields w').op.toNat := by
    rw [opcode_of_decode h, fields_op_of_agree hagree, fields_op_toNat]
  rcases decode_cases w' with ⟨i', h', -⟩ | ⟨-, hillegal⟩
  · have hbits : usedBits i' = usedBits i := by
      rw [usedBits_eq_rowMask, usedBits_eq_rowMask, hopcode, opcode_of_decode h', fields_op_toNat]
    have hword : encode i' = encode i := by
      rw [encode_of_decode h', hbits, hagree, encode_of_decode h]
    have hsame : (.ok i' : Except DecodeError Instr) = .ok i := by
      rw [← decodeOfEncode i' (wellFormed_of_decode h'), hword, decodeOfEncode i (wellFormed_of_decode h)]
    rw [h', hsame]
  · have hlegal := i.opcode_lt
    omega

/-! ### Words of the spec, and illegal opcodes (R88) -/

/-- Settles O1, by running the decoder on the ten words of 95_test_vectors.md §2.1. -/
theorem specWordsDecode : Obligations.SpecWordsDecode := by
  unfold Obligations.SpecWordsDecode
  decide

theorem decode_of_illegal {w : Word} (h : 13 < w.toNat / 2 ^ 28) :
    decode w = .error (.illegalOpcode (BitVec.ofNat 4 (w.toNat / 2 ^ 28))) := by
  rw [← fields_op_toNat] at h ⊢
  rw [BitVec.ofNat_toNat, BitVec.setWidth_eq]
  rcases decode_cases w with ⟨_, _, hle⟩ | ⟨hd, _⟩
  · omega
  · exact hd

end Sys2Proof
end

section
/-! PROOFS. What each instruction answers, said once: one equation per outcome of `exec`, on the condition of that outcome. -/

namespace Sys2Proof.Machine

variable {s : State} {a b c : Reg}

/-! ### Faults -/

/-- What `State.raise` leaves is what `Raises` states of an event (R171). -/
theorem State.raises_raise (s : State) (e : FaultEvent) : Raises s (s.raise e) e.cause e.info :=
  ⟨rfl, rfl, rfl, rfl, rfl, rfl⟩

/-- A raise after the advance is charged to the step's own offset and word (R171). -/
theorem State.takesFault_raise_advance {w : Word} (hw : s.mem.fetch s.pc = some w) (e : FaultEvent) :
    TakesFault s.advance (s.advance.raise e) s.pc (some w) e.cause e.info := by
  exact ⟨rfl, rfl, by simp, by simp [hw], rfl, rfl⟩

/-! ### ALU and register-to-register instructions (41_alu.md) -/

theorem exec_cmov_of_ne_zero (h : s.readReg c ≠ 0#32) :
    exec (.cmov a b c) s = .next (s.writeReg a (s.readReg b)) := by
  rw [exec, execCmov, if_pos ((isNonZero_iff _).mpr h)]

theorem exec_cmov_of_zero (h : s.readReg c = 0#32) : exec (.cmov a b c) s = .next s := by
  rw [exec, execCmov, h]
  rfl

theorem exec_add : exec (.add a b c) s = .next (s.writeReg a (aluAdd (s.readReg b) (s.readReg c))) := rfl

theorem exec_mul : exec (.mul a b c) s = .next (s.writeReg a (aluMul (s.readReg b) (s.readReg c))) := rfl

theorem exec_nand : exec (.nand a b c) s = .next (s.writeReg a (aluNand (s.readReg b) (s.readReg c))) := rfl

theorem exec_div_of_ne_zero (h : s.readReg c ≠ 0#32) :
    exec (.div a b c) s = .next (s.writeReg a (aluDiv (s.readReg b) (s.readReg c))) := by
  rw [exec, execDiv, if_neg (mt (isZero_iff _).mp h)]

theorem exec_div_of_zero (h : s.readReg c = 0#32) :
    exec (.div a b c) s = .next (s.raise ⟨.divideByZero, .dividend (s.readReg b)⟩) := by
  rw [exec, execDiv, if_pos ((isZero_iff _).mpr h)]

/-! ### HALT and LOADPROG (40_sequencing.md) -/

theorem exec_halt : exec .halt s = .next (s.setRun .halted) := rfl

theorem exec_loadprog_of_zero (h : s.readReg b = 0#32) : exec (.loadprog b c) s = .next (s.setPc (s.readReg c)) := by
  rw [exec, execLoadprog, h]
  rfl

theorem exec_loadprog_of_ne_zero (h : s.readReg b ≠ 0#32) : exec (.loadprog b c) s =
    .next (s.onAnswer (s.mem.segLoad (s.readReg b)) (fun m => (s.setMem m).setPc (s.readReg c))) := by
  rw [exec, execLoadprog, if_pos ((isNonZero_iff _).mpr h)]

theorem exec_loadprog_of_ok {m : Memory} (h : s.readReg b ≠ 0#32) (hm : s.mem.segLoad (s.readReg b) = .ok m) :
    exec (.loadprog b c) s = .next ((s.setMem m).setPc (s.readReg c)) := by
  rw [exec_loadprog_of_ne_zero h, hm, State.onAnswer_ok]

theorem exec_loadprog_of_not_live (h : s.readReg b ≠ 0#32) (hl : s.mem.live (s.readReg b) = false) :
    exec (.loadprog b c) s = .next (s.raise ⟨.segmentNotMapped, .ident (s.readReg b)⟩) := by
  rw [exec_loadprog_of_ne_zero h, Memory.segLoad_of_not_live h hl, State.onAnswer_error]

/-! ### Segment instructions (42_segment_ops.md): the instruction does what the port answers -/

theorem exec_segread : exec (.segread a b c) s =
    .next (s.onAnswer (s.mem.segRead (s.readReg b) (s.readReg c)) (fun v => s.writeReg a v)) := rfl

theorem exec_segwrite : exec (.segwrite a b c) s =
    .next (s.onAnswer (s.mem.segWrite (s.readReg a) (s.readReg b) (s.readReg c)) (fun m => s.setMem m)) := rfl

theorem exec_segfree : exec (.segfree c) s =
    .next (s.onAnswer (s.mem.segFree (s.readReg c)) (fun m => s.setMem m)) := rfl

/-- What the memory manager answers to the size in `x[C]`, with the draws of this state. -/
abbrev State.segAllocAnswer (s : State) (c : Reg) : Option (Except FaultEvent (Word × Memory)) :=
  s.mem.segAlloc s.allocCanFail (Config.freeAllocRefusal s.draws) (Config.freeIdentifier s.draws) (s.readReg c)

theorem exec_segalloc_of_none (h : s.segAllocAnswer c = none) : exec (.segalloc b c) s = .fault .allocStuck := by
  simp only [exec, execSegalloc, h]

theorem exec_segalloc_of_some {r : Except FaultEvent (Word × Memory)} (h : s.segAllocAnswer c = some r) :
    exec (.segalloc b c) s = .next (s.onAnswer r (fun p => ((s.setMem p.2).countDraw).writeReg b p.1)) := by
  simp only [exec, execSegalloc, h]

/-! ### Input and output (43_io.md) -/

theorem exec_out_of_exceeds (h : 255 < (s.readReg c).toNat) :
    exec (.out c) s = .next (s.raise ⟨.outputOutOfRange, .value (s.readReg c)⟩) := by
  rw [exec, execOut, if_pos ((exceedsByte_iff _).mpr h)]

theorem exec_out_of_none (h : (s.readReg c).toNat ≤ 255) (ho : s.ioOut (lowByte (s.readReg c)) = none) :
    exec (.out c) s = .fault .outputHeld := by
  rw [exec, execOut, if_neg (mt (exceedsByte_iff _).mp (Nat.not_lt_of_le h)), ho]

theorem exec_out_of_some {t : State} (h : (s.readReg c).toNat ≤ 255) (ho : s.ioOut (lowByte (s.readReg c)) = some t) :
    exec (.out c) s = .next t := by
  rw [exec, execOut, if_neg (mt (exceedsByte_iff _).mp (Nat.not_lt_of_le h)), ho]

theorem exec_inp_of_none (h : s.ioIn = none) : exec (.inp c) s = .fault .inputHeld := by
  rw [exec, execInp, h]

theorem exec_inp_of_some {r : InputAnswer} {t : State} (h : s.ioIn = some (r, t)) :
    exec (.inp c) s = .next (t.writeReg c (inputWord r)) := by
  rw [exec, execInp, h]

end Sys2Proof.Machine
end

section
/-! PROOFS. The ALU and the register-to-register instructions (41_alu.md R121 to R130), HALT (40_sequencing.md R105), and
LOADPROG (R108). -/

namespace Sys2Proof.Machine

/-! ### ALU (41_alu.md) -/

/-- Settles O16, by the two outcomes of CMOV. -/
theorem cmovMovesOnNonZero : Obligations.CmovMovesOnNonZero :=
  fun s a b _ => ⟨fun hc => ⟨_, exec_cmov_of_ne_zero hc, s.writesOnly_writeReg a (s.readReg b)⟩, exec_cmov_of_zero⟩

/-- Settles O17: `aluAdd` is addition modulo 2^32. -/
theorem addWritesSum : Obligations.AddWritesSum := by
  intro s a b c
  have hsum : BitVec.ofNat 32 (((s.readReg b).toNat + (s.readReg c).toNat) % 2 ^ 32) =
      aluAdd (s.readReg b) (s.readReg c) := by
    rw [← BitVec.toNat_add, BitVec.ofNat_toNat, BitVec.setWidth_eq, aluAdd]
  rw [hsum]
  exact ⟨_, exec_add, s.writesOnly_writeReg a _⟩

/-- Settles O18: `aluMul` is multiplication modulo 2^32. -/
theorem mulWritesProduct : Obligations.MulWritesProduct := by
  intro s a b c
  have hproduct : BitVec.ofNat 32 ((s.readReg b).toNat * (s.readReg c).toNat % 2 ^ 32) =
      aluMul (s.readReg b) (s.readReg c) := by
    rw [← BitVec.toNat_mul, BitVec.ofNat_toNat, BitVec.setWidth_eq, aluMul]
  rw [hproduct]
  exact ⟨_, exec_mul, s.writesOnly_writeReg a _⟩

/-- Settles O19: the quotient does not wrap (`aluDiv_toNat`). -/
theorem divWritesQuotient : Obligations.DivWritesQuotient :=
  fun s a _ _ hc => ⟨_, _, exec_div_of_ne_zero hc, s.writesOnly_writeReg a _, aluDiv_toNat _ _⟩

/-- Settles O21: the bits of `aluNand` are `aluNand_getLsbD`. -/
theorem nandWritesComplementOfAnd : Obligations.NandWritesComplementOfAnd :=
  fun s a _ _ => ⟨_, _, exec_nand, s.writesOnly_writeReg a _, fun _ hn => aluNand_getLsbD _ _ hn⟩

/-! ### HALT and LOADPROG (40_sequencing.md) -/

theorem decode_halt {w : Word} (h : w.toNat / 2 ^ 28 = 7) : decode w = .ok .halt :=
  decode_of_op ((fields_op_toNat w).trans h)

/-- Settles O23: any word of opcode 7 decodes to HALT. -/
theorem haltEntersHalted : Obligations.HaltEntersHalted :=
  ⟨fun _ => exec_halt, fun _ _ hrun hw hop => ⟨step_of_decode hrun hw (decode_halt hop), rfl⟩⟩

/-- Settles O24: with identifier 0 no request is made. -/
theorem loadprogZeroOnlyJumps : Obligations.LoadprogZeroOnlyJumps :=
  fun _ _ _ hb => exec_loadprog_of_zero hb

/-- A live identifier's segment is what SegLoad copies into segment zero. -/
theorem Memory.exists_segLoad {m : Memory} {id : Word} (h : m.live id = true) : ∃ m', m.segLoad id = .ok m' := by
  obtain ⟨g, hg⟩ := Option.isSome_iff_exists.mp ((m.segment_isSome id).mpr (.inr h))
  exact ⟨_, Memory.segLoad_of_live ((m.live_iff id).mp h).1 hg⟩

/-- Settles O25: after the SegLoad identifier 0 names the source's segment, and every other identifier the segment it named
(`segment_segLoad`). -/
theorem loadprogReplacesSegmentZero : Obligations.LoadprogReplacesSegmentZero := by
  intro s b c hb hl
  obtain ⟨m, hm⟩ := Memory.exists_segLoad hl
  have hcopy : m.segment 0#32 = s.mem.segment (s.readReg b) := by simp [Memory.segment_segLoad hb hm]
  have hother : ∀ q, q ≠ 0#32 → m.segment q = s.mem.segment q := fun q hq => by simp [Memory.segment_segLoad hb hm, hq]
  exact ⟨_, exec_loadprog_of_ok hb hm, rfl, Memory.length_eq_of_segment_eq hcopy, Memory.word_eq_of_segment_eq hcopy,
    fun q off hq => Memory.word_eq_of_segment_eq (hother q hq) off,
    fun q hq => Memory.length_eq_of_segment_eq (hother q hq), Memory.freeIds_segLoad hm, rfl⟩

/-- Settles O26: SegLoad turns the identifier down. -/
theorem loadprogOfUnmappedFaults : Obligations.LoadprogOfUnmappedFaults :=
  fun s _ _ hb hl => ⟨_, exec_loadprog_of_not_live hb hl, s.raises_raise _⟩

end Sys2Proof.Machine
end

section
/-! PROOFS. The step (40_sequencing.md R101, R104, R107) and the program counter (10_state.md R26, R27). -/

namespace Sys2Proof.Machine

/-! ### One equation per outcome of `step` -/

theorem step_of_fetch_none {s : State} (hrun : s.run = .running) (hw : s.mem.fetch s.pc = none) :
    step s = .next s.raiseFetchFault := by
  simp only [step, hrun, hw]

theorem step_of_illegal {s : State} {w : Word} {op : BitVec 4} (hrun : s.run = .running)
    (hw : s.mem.fetch s.pc = some w) (hd : decode w = .error (.illegalOpcode op)) :
    step s = .next (s.advance.raise ⟨.illegalOpcode, .opcode op⟩) := by
  simp only [step, hrun, hw, hd, State.raiseDecodeFault]

theorem step_of_halted {s : State} (hrun : s.run = .halted) : step s = .fault .halted := by
  simp only [step, hrun]

theorem step_of_faulted {s : State} (hrun : s.run = .faulted) : step s = .fault .faulted := by
  simp only [step, hrun]

/-- Settles O11: `step` answers a stop in both terminal states. -/
theorem noStepOnceStopped : Obligations.NoStepOnceStopped := by
  refine ⟨fun s t hrun => ?_, fun s t hrun => ?_⟩
  · rw [step_of_halted hrun]; nofun
  · rw [step_of_faulted hrun]; nofun

/-- Settles O8: the four orders of R101; a fault of a fetched word is a raise after the advance. -/
theorem stepRunsDecodedInstruction : Obligations.StepRunsDecodedInstruction := by
  intro s hrun
  refine ⟨step_of_fetch_none hrun, fun w op => step_of_illegal hrun, fun w i => step_of_decode hrun, ?_⟩
  intro w t hw h hf
  rcases raise_of_step_faulted h hf with ⟨hnone, -⟩ | ⟨_, e, -, -, rfl⟩
  · rw [hw] at hnone; cases hnone
  · rfl

theorem Memory.fetch_eq_none {m : Memory} {off : Word} : m.fetch off = none ↔ m.seg0.len ≤ off.toNat :=
  Segment.read_eq_none

theorem Memory.fetch_isSome {m : Memory} {off : Word} : (m.fetch off).isSome ↔ off.toNat < m.seg0.len :=
  Segment.read_isSome

theorem State.takesFault_raiseFetchFault (s : State) :
    TakesFault s s.raiseFetchFault s.pc none .fetchOutOfBounds (.offset s.pc) :=
  ⟨rfl, rfl, rfl, rfl, rfl, rfl⟩

/-- Settles O9: a fetch is a read of segment zero, which answers exactly below its length. -/
theorem fetchIsBounded : Obligations.FetchIsBounded := by
  intro s hrun
  refine ⟨fun hle => ⟨_, step_of_fetch_none hrun (Memory.fetch_eq_none.mpr hle), s.takesFault_raiseFetchFault⟩, ?_⟩
  intro hlt
  obtain ⟨w, hw⟩ := Option.isSome_iff_exists.mp (Memory.fetch_isSome.mpr hlt)
  exact ⟨w, hw, hw⟩

/-- Settles O10: such a word is rejected by its opcode alone (`decode_of_illegal`). -/
theorem illegalOpcodeFaults : Obligations.IllegalOpcodeFaults :=
  fun _ _ hrun hw hop => ⟨_, step_of_illegal hrun hw (decode_of_illegal hop), State.takesFault_raise_advance hw _⟩

/-- Settles O14: an offset that fetches is below a length below 2^32. -/
theorem advanceNeverWraps : Obligations.AdvanceNeverWraps := by
  intro s w hinv hw
  obtain ⟨⟨-, -, hlen⟩, -⟩ := hinv.mem
  have hlt : s.pc.toNat < s.mem.seg0.len := Memory.fetch_isSome.mp (by simp [hw])
  rw [BitVec.toNat_add]
  exact Nat.mod_eq_of_lt (Nat.lt_of_le_of_lt hlt hlen)

/-- Settles O20: the divisor is zero after the advance too, and a `FAULTED` machine takes no step. -/
theorem divideByZeroEndsTheRun : Obligations.DivideByZeroEndsTheRun := by
  intro s w a b c hrun hw hd hc
  have hc' : s.advance.readReg c = 0#32 := hc
  refine ⟨_, (step_of_decode hrun hw hd).trans (exec_div_of_zero hc'), State.takesFault_raise_advance hw _, rfl, ?_⟩
  exact fun u => noStepOnceStopped.2 _ u rfl

/-! ### The program counter after a step (R107) -/

theorem Completes.pc_eq {i : Instr} {s t : State} (h : Completes s i t) (hi : ∀ b c, i ≠ .loadprog b c) : t.pc = s.pc := by
  cases h with
  | loadprogZero _ => exact absurd rfl (hi _ _)
  | loadprogLoad _ _ => exact absurd rfl (hi _ _)
  | _ => rfl

theorem Completes.pc_of_loadprog {b c : Reg} {s t : State} (h : Completes s (.loadprog b c) t) : t.pc = s.readReg c := by
  cases h <;> rfl

/-- Settles O12, by the outcomes of a step: what `pc` is after a completion is `Completes.pc_eq` and
`Completes.pc_of_loadprog`, and a raise leaves it where the advance put it. -/
theorem nextPcOfEveryOutcome : Obligations.NextPcOfEveryOutcome := by
  intro s t h
  have hrun := run_of_step h
  cases stepOutcome_of_step h with
  | fetchFault hw => simp [hw]
  | decodeFault hw _ _ => simp [hw]
  | faults hw _ _ => simp [hw]
  | completes hw hd hc =>
    refine ⟨fun hw' => ?_, fun w' op hw' hd' => ?_, fun w' i' hw' hd' hi => ?_, fun w' b c hw' hd' => ?_⟩
    · cases hw.symm.trans hw'
    · cases hw.symm.trans hw'; cases hd.symm.trans hd'
    · cases hw.symm.trans hw'; cases hd.symm.trans hd'
      exact hc.pc_eq hi
    · cases hw.symm.trans hw'; cases hd.symm.trans hd'
      exact ⟨fun hf => absurd hf (hc.run_ne_faulted hrun), fun _ => hc.pc_of_loadprog⟩

end Sys2Proof.Machine
end

section
/-! PROOFS. No instruction reads `pc` (10_state.md R26, 40_sequencing.md R100): the same instruction run at another `pc`. -/

namespace Sys2Proof.Machine

/-- `t'` stands at `p` and is `t` but for `pc` and the record's `fault_pc` and `fault_word`. -/
def StandsAt (p : Word) (t t' : State) : Prop :=
  t'.pc = p ∧ { t' with
    pc := t.pc
    fault := { t'.fault with faultPc := t.fault.faultPc, faultWord := t.fault.faultWord } } = t

theorem standsAt_setPc (p : Word) (t : State) : StandsAt p t (t.setPc p) := ⟨rfl, rfl⟩

theorem standsAt_raise (p : Word) (s : State) (e : FaultEvent) : StandsAt p (s.raise e) ((s.setPc p).raise e) := ⟨rfl, rfl⟩

/-- A port's answer leads to the same state at another `pc`, if what follows its success does. -/
theorem standsAt_onAnswer {α : Type} {p : Word} {s : State} (r : Except FaultEvent α) {k k' : α → State}
    (hk : ∀ a, StandsAt p (k a) (k' a)) : StandsAt p (s.onAnswer r k) ((s.setPc p).onAnswer r k') := by
  cases r with
  | ok a => exact hk a
  | error e => exact standsAt_raise p s e

theorem State.ioOut_setPc (s : State) (p : Word) (byte : Byte) :
    (s.setPc p).ioOut byte = (s.ioOut byte).map (·.setPc p) := by
  unfold ioOut
  rw [setPc_outputRoom]
  cases s.outputRoom with
  | none => rfl
  | some n => cases n <;> rfl

theorem State.ioIn_setPc (s : State) (p : Word) :
    (s.setPc p).ioIn = s.ioIn.map (fun q => (q.1, q.2.setPc p)) := by
  unfold ioIn
  rw [setPc_input, setPc_inputAfter]
  cases s.input with
  | cons r rest => rfl
  | nil => cases s.inputAfter <;> rfl

/-- Every instruction but LOADPROG answers the same state at another `pc`. -/
theorem exec_setPc {i : Instr} {s t : State} (p : Word) (hi : ∀ b c, i ≠ .loadprog b c) (h : exec i s = .next t) :
    ∃ t', exec i (s.setPc p) = .next t' ∧ StandsAt p t t' := by
  cases i with
  | cmov a b c =>
    by_cases hc : s.readReg c = 0#32
    · rw [exec_cmov_of_zero hc] at h; cases h
      exact ⟨_, exec_cmov_of_zero hc, standsAt_setPc p s⟩
    · rw [exec_cmov_of_ne_zero hc] at h; cases h
      exact ⟨_, exec_cmov_of_ne_zero hc, standsAt_setPc p _⟩
  | div a b c =>
    by_cases hc : s.readReg c = 0#32
    · rw [exec_div_of_zero hc] at h; cases h
      exact ⟨_, exec_div_of_zero hc, standsAt_raise p s _⟩
    · rw [exec_div_of_ne_zero hc] at h; cases h
      exact ⟨_, exec_div_of_ne_zero hc, standsAt_setPc p _⟩
  | add a b c => cases h; exact ⟨_, exec_add, standsAt_setPc p _⟩
  | mul a b c => cases h; exact ⟨_, exec_mul, standsAt_setPc p _⟩
  | nand a b c => cases h; exact ⟨_, exec_nand, standsAt_setPc p _⟩
  | halt => cases h; exact ⟨_, exec_halt, standsAt_setPc p _⟩
  | loadimm la imm => cases h; exact ⟨_, rfl, standsAt_setPc p _⟩
  | segread a b c => cases h; exact ⟨_, exec_segread, standsAt_onAnswer _ fun _ => standsAt_setPc p _⟩
  | segwrite a b c => cases h; exact ⟨_, exec_segwrite, standsAt_onAnswer _ fun _ => standsAt_setPc p _⟩
  | segfree c => cases h; exact ⟨_, exec_segfree, standsAt_onAnswer _ fun _ => standsAt_setPc p _⟩
  | segalloc b c =>
    cases hr : s.segAllocAnswer c with
    | none => rw [exec_segalloc_of_none hr] at h; cases h
    | some r =>
      rw [exec_segalloc_of_some hr] at h; cases h
      exact ⟨_, exec_segalloc_of_some hr, standsAt_onAnswer r fun _ => standsAt_setPc p _⟩
  | out c =>
    by_cases hv : 255 < (s.readReg c).toNat
    · rw [exec_out_of_exceeds hv] at h; cases h
      exact ⟨_, exec_out_of_exceeds hv, standsAt_raise p s _⟩
    · have hle := Nat.le_of_not_lt hv
      have ho' := s.ioOut_setPc p (lowByte (s.readReg c))
      cases ho : s.ioOut (lowByte (s.readReg c)) with
      | none => rw [exec_out_of_none hle ho] at h; cases h
      | some u =>
        rw [exec_out_of_some hle ho] at h; cases h
        rw [ho] at ho'
        exact ⟨_, exec_out_of_some hle ho', standsAt_setPc p _⟩
  | inp c =>
    have ho' := s.ioIn_setPc p
    cases ho : s.ioIn with
    | none => rw [exec_inp_of_none ho] at h; cases h
    | some q =>
      rw [exec_inp_of_some ho] at h; cases h
      rw [ho] at ho'
      exact ⟨_, exec_inp_of_some ho', standsAt_setPc p _⟩
  | loadprog b c => exact absurd rfl (hi b c)

/-- A LOADPROG that completes answers the very same state at another `pc`: it writes `pc`. -/
theorem exec_loadprog_setPc {b c : Reg} {s t : State} (p : Word) (h : exec (.loadprog b c) s = .next t) :
    ((s.readReg b = 0#32 ∨ s.mem.live (s.readReg b) = true) ∧ exec (.loadprog b c) (s.setPc p) = .next t) ∨
    ((s.readReg b ≠ 0#32 ∧ s.mem.live (s.readReg b) = false) ∧
      ∃ t', exec (.loadprog b c) (s.setPc p) = .next t' ∧ StandsAt p t t') := by
  by_cases hb : s.readReg b = 0#32
  · rw [exec_loadprog_of_zero hb] at h; cases h
    exact .inl ⟨.inl hb, exec_loadprog_of_zero hb⟩
  · cases hl : s.mem.live (s.readReg b) with
    | true =>
      obtain ⟨m, hm⟩ := Memory.exists_segLoad hl
      rw [exec_loadprog_of_ok hb hm] at h; cases h
      exact .inl ⟨.inr rfl, exec_loadprog_of_ok hb hm⟩
    | false =>
      rw [exec_loadprog_of_not_live hb hl] at h; cases h
      exact .inr ⟨⟨hb, rfl⟩, _, exec_loadprog_of_not_live hb hl, standsAt_raise p s _⟩

/-- Settles O13: LOADPROG by `exec_loadprog_setPc`, any other instruction by `exec_setPc`. -/
theorem noInstructionReadsPc : Obligations.NoInstructionReadsPc := by
  intro i s t p h
  by_cases hi : ∀ b c, i ≠ .loadprog b c
  · obtain ⟨t', hx, hp, hsame⟩ := exec_setPc p hi h
    exact ⟨t', hx, hsame, fun b c e => absurd e (hi b c), fun _ => hp⟩
  · push Not at hi
    obtain ⟨b, c, rfl⟩ := hi
    rcases exec_loadprog_setPc p h with ⟨hcompletes, hx⟩ | ⟨⟨hb, hl⟩, t', hx, hp, hsame⟩
    · refine ⟨t, hx, rfl, fun _ _ _ _ => rfl, fun hfaults => ?_⟩
      obtain ⟨hb, hl⟩ := hfaults b c rfl
      simp [hb, hl] at hcompletes
    · refine ⟨t', hx, hsame, fun b' c' e hcompletes => ?_, fun _ => hp⟩
      cases e
      simp [hb, hl] at hcompletes

end Sys2Proof.Machine
end

section
/-! PROOFS. The memory port and the segment instructions (20_memory.md R46 to R55, R66; 42_segment_ops.md R141 to R152):
what each transaction answers, then each instruction by its transaction. -/

namespace Sys2Proof.Machine

/-! ### Lengths and the segments they belong to -/

theorem Memory.length_eq_some {m : Memory} {id : Word} {n : Nat} :
    m.length id = some n ↔ ∃ g, m.segment id = some g ∧ g.len = n := Option.map_eq_some_iff

/-- An offset below the length reads a word. -/
theorem Memory.exists_word {m : Memory} {id off : Word} {n : Nat} (hlen : m.length id = some n) (hoff : off.toNat < n) :
    ∃ v, m.word id off = some v := by
  obtain ⟨g, hg, rfl⟩ := Memory.length_eq_some.mp hlen
  rw [Memory.word_of_segment hg]
  exact Option.isSome_iff_exists.mp (Segment.read_isSome.mpr hoff)

theorem Memory.segWrite_of_below {m : Memory} {id off : Word} {n : Nat} (v : Word) (hlen : m.length id = some n)
    (hoff : off.toNat < n) : ∃ m', m.segWrite id off v = .ok m' := by
  obtain ⟨g, hg, rfl⟩ := Memory.length_eq_some.mp hlen
  obtain ⟨w, hw⟩ := Option.isSome_iff_exists.mp (Segment.read_isSome.mpr hoff)
  exact ⟨m.setSegment id (g.write off.toNat v), by simp only [Memory.segWrite, hg, hw]⟩

theorem Memory.segWrite_of_beyond {m : Memory} {id off : Word} {g : Segment} (v : Word) (hg : m.segment id = some g)
    (hoff : g.len ≤ off.toNat) : m.segWrite id off v = .error ⟨.segmentOffsetOutOfBounds, .identOffset id off⟩ := by
  simp only [Memory.segWrite, hg, Segment.read_eq_none.mpr hoff]

/-! ### SEGREAD and SEGWRITE (R141, R145) -/

/-- Settles O27: an offset below the length reads a word, which SegRead answers. -/
theorem segreadWritesTheWord : Obligations.SegreadWritesTheWord := by
  intro s a b c n hlen hoff
  obtain ⟨v, hv⟩ := Memory.exists_word hlen hoff
  refine ⟨_, v, hv, ?_, s.writesOnly_writeReg a v⟩
  rw [exec_segread, Memory.segRead_of_word hv, State.onAnswer_ok]

theorem exec_segwrite_of_ok {s : State} {a b c : Reg} {m : Memory}
    (h : s.mem.segWrite (s.readReg a) (s.readReg b) (s.readReg c) = .ok m) :
    exec (.segwrite a b c) s = .next (s.setMem m) := by
  rw [exec_segwrite, h, State.onAnswer_ok]

/-- Settles O28: what every word reads after the SegWrite is `word_segWrite`. -/
theorem segwriteStoresTheWord : Obligations.SegwriteStoresTheWord := by
  intro s a b c n hlen hoff
  obtain ⟨m, hm⟩ := Memory.segWrite_of_below (s.readReg c) hlen hoff
  have hword := Memory.word_segWrite hm
  refine ⟨_, exec_segwrite_of_ok hm, ?_, fun q off hq => ?_, Memory.length_segWrite hm, Memory.freeIds_segWrite hm, rfl⟩
  · exact (hword _ _).trans (if_pos ⟨rfl, rfl⟩)
  · exact (hword q off).trans (if_neg hq)

/-- Settles O29: SegRead and SegWrite check the identifier first, then the offset. -/
theorem segmentAccessFaults : Obligations.SegmentAccessFaults := by
  intro s a b c
  refine ⟨fun hb hl => ?_, fun n hlen hoff => ?_, fun ha hl => ?_, fun n hlen hoff => ?_⟩
  · have hs := (Memory.segment_eq_none _ _).mpr ⟨hb, hl⟩
    exact ⟨_, by rw [exec_segread, Memory.segRead_of_unmapped _ hs, State.onAnswer_error], s.raises_raise _⟩
  · obtain ⟨g, hg, rfl⟩ := Memory.length_eq_some.mp hlen
    exact ⟨_, by rw [exec_segread, Memory.segRead_of_beyond hg hoff, State.onAnswer_error], s.raises_raise _⟩
  · have hs := (Memory.segment_eq_none _ _).mpr ⟨ha, hl⟩
    exact ⟨_, by rw [exec_segwrite, Memory.segWrite_of_unmapped _ _ hs, State.onAnswer_error], s.raises_raise _⟩
  · obtain ⟨g, hg, rfl⟩ := Memory.length_eq_some.mp hlen
    exact ⟨_, by rw [exec_segwrite, Memory.segWrite_of_beyond _ hg hoff, State.onAnswer_error], s.raises_raise _⟩

/-! ### SEGALLOC (R50, R51, R149, R150) -/

theorem Memory.someFree_iff {m : Memory} (hm : m.wf) : m.SomeFree ↔ m.hasFreeIdentifier = true :=
  (Memory.hasFreeIdentifier_iff hm).symm

theorem Memory.allocated_allocate {m : Memory} {id : Word} (n : Word) (h0 : id ≠ 0#32) (hl : m.live id = false) :
    Memory.Allocated m (m.allocate id n) id n := by
  have hs : (m.allocate id n).segment id = some (Segment.zeros n.toNat) :=
    (m.segment_allocate n id h0).trans (if_pos rfl)
  refine ⟨h0, hl, ?_, Memory.length_eq_some.mpr ⟨_, hs, rfl⟩, fun off hoff => ?_, fun q hq => ?_,
    fun _ => Memory.mem_freeIds_allocate⟩
  · rw [Memory.live_eq_segment_isSome _ h0, hs, Option.isSome_some]
  · rw [Memory.word_of_segment hs, Segment.read_zeros, if_pos hoff]
  · exact (m.segment_allocate n q h0).trans (if_neg hq)

/-- The memory after an answered SegAlloc: whatever is drawn, a free identifier is returned (R50). -/
theorem Memory.allocated_of_segAlloc {m m' : Memory} {canFail refuses : Bool} {drawn n id : Word} (hm : m.wf)
    (h : m.segAlloc canFail refuses drawn n = some (.ok (id, m'))) : Memory.Allocated m m' id n := by
  rcases m.segAlloc_spec canFail refuses drawn n with ⟨_, _, ha⟩ | ⟨_, _, ha⟩ | ⟨hf, _, ha⟩
  · cases ha.symm.trans h
  · cases ha.symm.trans h
  · cases ha.symm.trans h
    obtain ⟨h0, hl⟩ := Memory.chooseIdentifier_spec hm hf drawn
    exact Memory.allocated_allocate n h0 hl

theorem exec_segalloc_of_ok {s : State} {b c : Reg} {id : Word} {m : Memory} (hm : s.mem.wf)
    (h : s.segAllocAnswer c = some (.ok (id, m))) : ∃ t, exec (.segalloc b c) s = .next t ∧ Allocates s t b c := by
  refine ⟨_, exec_segalloc_of_some h, ?_, fun r hr => ?_, rfl⟩
  · simpa using Memory.allocated_of_segAlloc hm h
  · exact State.readReg_writeReg_other _ id hr

/-- Settles O30: with a free identifier and no refusal SegAlloc answers one. -/
theorem segallocAllocates : Obligations.SegallocAllocates := by
  intro s b c hm hcan hfree
  have hok := Memory.segAlloc_ok (Config.freeAllocRefusal s.draws) (Config.freeIdentifier s.draws) (s.readReg c)
    ((Memory.someFree_iff hm).mp hfree)
  exact exec_segalloc_of_ok hm (by rw [State.segAllocAnswer, hcan]; exact hok)

/-- Settles O31: SegAlloc answers an error or an identifier, and the identifier only where one is free. -/
theorem segallocCanBeRefused : Obligations.SegallocCanBeRefused := by
  intro s b c hm hcan
  rcases s.mem.segAlloc_spec s.allocCanFail (Config.freeAllocRefusal s.draws) (Config.freeIdentifier s.draws)
    (s.readReg c) with ⟨_, hno, _⟩ | ⟨_, _, ha⟩ | ⟨hf, _, ha⟩
  · rw [hcan] at hno; cases hno
  · have hraises := s.raises_raise ⟨.allocExhausted, .size (s.readReg c)⟩
    exact ⟨_, exec_segalloc_of_some ha, .inr hraises, fun _ => hraises⟩
  · have hfree := (Memory.someFree_iff hm).mpr hf
    obtain ⟨t, hx, ht⟩ := exec_segalloc_of_ok (b := b) hm ha
    exact ⟨t, hx, .inl ⟨hfree, ht⟩, fun hnone => absurd hfree hnone⟩

/-- Settles O32: in a canonical memory the length test for a free identifier is exact. -/
theorem segallocStuckWhenAllLive : Obligations.SegallocStuckWhenAllLive := by
  intro s b c hm hcan hnone
  rw [Memory.someFree_iff hm, Bool.not_eq_true] at hnone
  exact exec_segalloc_of_none (by simp only [State.segAllocAnswer, Memory.segAlloc, hnone, hcan])

/-- Settles O33: a free draw is returned as drawn, and what is returned is always free. -/
theorem exactlyFreeIdentifiersAreDrawn : Obligations.ExactlyFreeIdentifiersAreDrawn := by
  intro m hm hfree id
  constructor
  · rintro ⟨drawn, rfl⟩
    exact Memory.chooseIdentifier_spec hm ((Memory.someFree_iff hm).mp hfree) drawn
  · exact fun ⟨h0, hl⟩ => ⟨id, Memory.chooseIdentifier_drawn h0 hl⟩

/-! ### SEGFREE (R152) -/

theorem exec_segfree_of_ok {s : State} {c : Reg} {m : Memory} (h : s.mem.segFree (s.readReg c) = .ok m) :
    exec (.segfree c) s = .next (s.setMem m) := by
  rw [exec_segfree, h, State.onAnswer_ok]

/-- Settles O34: SegFree removes one identifier's segment (`segment_segFree`). -/
theorem segfreeFrees : Obligations.SegfreeFrees := by
  intro s c hl
  have hok := Memory.segFree_of_live hl
  have h0 := ((Memory.live_iff _ _).mp hl).1
  refine ⟨_, exec_segfree_of_ok hok, Memory.not_live_of_segFree h0 hok, fun _ => mem_insertId,
    fun q hq => ?_, rfl⟩
  exact (Memory.segment_segFree hok q).trans (if_neg hq)

/-- Settles O35: identifier 0 is not live. -/
theorem segfreeOfNonLiveFaults : Obligations.SegfreeOfNonLiveFaults := by
  intro s c h
  have hl : s.mem.live (s.readReg c) = false := h.elim (fun h0 => by rw [h0, Memory.live_zero]) id
  exact ⟨_, by rw [exec_segfree, Memory.segFree_of_not_live hl, State.onAnswer_error], s.raises_raise _⟩

/-! ### Reads after writes and allocations (R66), and segments of no words (R55) -/

/-- What SegRead answers is decided by the segment's length and the word. -/
theorem Memory.segRead_congr {m m' : Memory} {q o : Word} (hlen : m'.length q = m.length q)
    (hword : m'.word q o = m.word q o) : m'.segRead q o = m.segRead q o := by
  rcases m.segRead_spec q o with ⟨hs, ha⟩ | ⟨g, hs, ho, ha⟩ | ⟨w, hw, ha⟩
  · have hs' : m'.segment q = none := Option.map_eq_none_iff.mp (hlen.trans (Option.map_eq_none_iff.mpr hs))
    rw [ha, Memory.segRead_of_unmapped o hs']
  · obtain ⟨g', hs', hg⟩ := Memory.length_eq_some.mp (hlen.trans (Memory.length_eq_some.mpr ⟨g, hs, rfl⟩))
    rw [ha, Memory.segRead_of_beyond hs' (hg ▸ ho)]
  · rw [ha, Memory.segRead_of_word (hword.trans hw)]

/-- Settles O38: a SegRead is decided by length and word (`segRead_congr`), of which a SegWrite changes one word only, and an
allocation one identifier only. -/
theorem readAnswersLatestWrite : Obligations.ReadAnswersLatestWrite := by
  intro m
  refine ⟨fun id off v m' h q o => ?_, fun hm canFail refuses drawn n id m' h => ?_⟩
  · have hword := Memory.word_segWrite h q o
    split
    · next hq => exact Memory.segRead_of_word (hword.trans (if_pos hq))
    · next hq => exact Memory.segRead_congr (Memory.length_segWrite h q) (hword.trans (if_neg hq))
  · obtain ⟨-, -, -, -, hzero, hother, -⟩ := Memory.allocated_of_segAlloc hm h
    refine ⟨fun off hoff => Memory.segRead_of_word (hzero off hoff), fun q o hq => ?_⟩
    exact Memory.segRead_congr (Memory.length_eq_of_segment_eq (hother q hq)) (Memory.word_eq_of_segment_eq (hother q hq) o)

/-- Settles O39: the new segment has length 0, so no offset is below it. -/
theorem zeroSizeSegment : Obligations.ZeroSizeSegment := by
  intro m canFail refuses drawn id m' hm h
  obtain ⟨h0, -, hlive, hlen, -, -, -⟩ := Memory.allocated_of_segAlloc hm h
  obtain ⟨g, hg, hg0⟩ := Memory.length_eq_some.mp hlen
  have hbeyond : ∀ off : Word, g.len ≤ off.toNat := fun off => hg0 ▸ Nat.zero_le _
  refine ⟨hlive, hlen, fun off v => ⟨?_, ?_⟩, _, Memory.segLoad_of_live h0 hg, fun off => ?_⟩
  · exact Memory.segRead_of_beyond hg (hbeyond off)
  · exact Memory.segWrite_of_beyond v hg (hbeyond off)
  · exact Memory.fetch_eq_none.mpr (hbeyond off)

/-- Settles O40: a fetch is a read of identifier 0, which SEGWRITE wrote (`word_segWrite`) or which names the loaded segment
(`segment_segLoad`). -/
theorem fetchSeesStoresAndLoads : Obligations.FetchSeesStoresAndLoads := by
  refine ⟨fun s t a b c h ha hb off => ?_, fun s t b c h hl => ?_⟩
  · have hlen : s.mem.length (s.readReg a) = some s.mem.seg0.len := by rw [ha]; rfl
    obtain ⟨m, hm⟩ := Memory.segWrite_of_below (s.readReg c) hlen hb
    cases (exec_segwrite_of_ok hm).symm.trans h
    rw [Memory.fetch_eq_word, State.setMem_mem, Memory.word_segWrite hm, ha, Memory.fetch_eq_word]
    simp only [true_and]
  · obtain ⟨m, hm⟩ := Memory.exists_segLoad hl
    have h0 := ((Memory.live_iff _ _).mp hl).1
    cases (exec_loadprog_of_ok h0 hm).symm.trans h
    have hcopy : m.segment 0#32 = s.mem.segment (s.readReg b) := by simp [Memory.segment_segLoad h0 hm]
    exact Memory.word_eq_of_segment_eq hcopy (s.readReg c)

/-! ### The canonical form is a normal form (log 11) -/

theorem Segment.read_of_two_pow_le {g : Segment} {off : Nat} (hg : g.wf) (h : 2 ^ 32 ≤ off) : g.read off = none :=
  Segment.read_eq_none.mpr (Nat.le_trans (Nat.le_of_lt hg.2.2) h)

/-- Canonical memories with equal lengths and words name equal segments. -/
theorem Memory.segment_eq_of_contents {m m' : Memory} (hm : m.wf) (hm' : m'.wf)
    (hlen : ∀ id, m.length id = m'.length id) (hword : ∀ id off, m.word id off = m'.word id off) (id : Word) :
    m.segment id = m'.segment id := by
  cases hs : m.segment id with
  | none => exact (Option.map_eq_none_iff.mp ((hlen id).symm.trans (Option.map_eq_none_iff.mpr hs))).symm
  | some g =>
    obtain ⟨g', hs', hg⟩ := Memory.length_eq_some.mp ((hlen id).symm.trans (Memory.length_eq_some.mpr ⟨g, hs, rfl⟩))
    have hwf := Memory.segment_wf hm hs
    have hwf' := Memory.segment_wf hm' hs'
    have hread : ∀ off, g.read off = g'.read off := by
      intro off
      by_cases hoff : off < 2 ^ 32
      · have := hword id (BitVec.ofNat 32 off)
        rwa [Memory.word_of_segment hs, Memory.word_of_segment hs', BitVec.toNat_ofNat, Nat.mod_eq_of_lt hoff] at this
      · have hle := Nat.le_of_not_lt hoff
        rw [Segment.read_of_two_pow_le hwf hle, Segment.read_of_two_pow_le hwf' hle]
    rw [hs', Segment.ext_of_read hwf hwf' hg.symm hread]

/-- A canonical table lists only non-zero words, so the identifiers' segments are all of it. -/
theorem Memory.get_table {m : Memory} (hm : m.wf) (k : Nat) :
    Assoc.get k m.table = if 0 < k ∧ k < 2 ^ 32 then m.segment (BitVec.ofNat 32 k) else none := by
  split
  · next hk =>
    have hnat : (BitVec.ofNat 32 k).toNat = k := by rw [BitVec.toNat_ofNat, Nat.mod_eq_of_lt hk.2]
    have h0 : BitVec.ofNat 32 k ≠ 0#32 := fun e => by rw [e] at hnat; simp at hnat; omega
    rw [Memory.segment_of_ne m h0, hnat]
  · next hk =>
    obtain ⟨-, -, hkeys, -, -⟩ := hm
    refine Assoc.get_eq_none.mpr fun hmem => hk ?_
    obtain ⟨e, he, rfl⟩ := List.mem_map.mp hmem
    exact ⟨(hkeys e he).1, (hkeys e he).2.1⟩

/-- Settles O41: equal contents give equal segments (`segment_eq_of_contents`), and canonical tables that read alike are
equal data. -/
theorem canonicalMemoriesAreEqual : Obligations.CanonicalMemoriesAreEqual := by
  intro m m' hm hm' hlen hword hids
  have hseg := Memory.segment_eq_of_contents hm hm' hlen hword
  have hseg0 : m.seg0 = m'.seg0 := Option.some.inj (hseg 0#32)
  have htable : m.table = m'.table :=
    Assoc.ext_of_get hm.2.1 hm'.2.1 fun k => by rw [Memory.get_table hm, Memory.get_table hm', hseg]
  cases m
  cases m'
  cases hseg0
  cases htable
  cases hids
  rfl

end Sys2Proof.Machine
end

section
/-! PROOFS. Input and output (43_io.md R161 to R165; 20_memory.md R62, R63). -/

namespace Sys2Proof.Machine

/-! ### OUT -/

/-- Settles O42: the low byte of a value in range is the value (`lowByte_toNat`). -/
theorem outAppendsTheByte : Obligations.OutAppendsTheByte := by
  intro s c hv hroom
  rcases s.ioOut_cases (lowByte (s.readReg c)) with ⟨hfull, _⟩ | ⟨_, ho⟩
  · exact absurd hfull hroom
  · exact ⟨_, _, exec_out_of_some hv ho, lowByte_toNat hv, rfl, rfl, rfl⟩

/-- Settles O43: the range test comes before the port request. -/
theorem outOfRangeValueFaults : Obligations.OutOfRangeValueFaults :=
  fun s _ hv => ⟨_, exec_out_of_exceeds hv, s.raises_raise _, rfl⟩

/-! ### IN -/

theorem inputWord_byte (byte : Byte) : inputWord (.byte byte) = BitVec.ofNat 32 byte.toNat :=
  BitVec.eq_of_toNat_eq (by simp [inputWord, wordOfByte])

theorem State.ioIn_of_listed {s : State} {r : InputAnswer} {rest : List InputAnswer} (h : s.input = r :: rest) :
    s.ioIn = some (r, { s with input := rest }) := by
  simp only [ioIn, h]

theorem State.ioIn_of_closed {s : State} (hi : s.input = []) (ha : s.inputAfter = .endOfStream) :
    s.ioIn = some (.eos, s) := by
  simp only [ioIn, hi, ha]

theorem State.ioIn_of_drawn {s : State} {n : Nat} (hi : s.input = []) (ha : s.inputAfter = .drawn n) :
    s.ioIn = some (InputAnswer.ofDraw (Config.freeInputAnswer n), { s with inputAfter := .drawn (n + 1) }) := by
  simp only [ioIn, hi, ha]

theorem State.ioIn_of_silent {s : State} (hi : s.input = []) (ha : s.inputAfter = .noAnswer) : s.ioIn = none := by
  simp only [ioIn, hi, ha]

/-- Settles O44: one clause per way the host answers; a drawn answer is a byte or `EOS` (`inputWord_cases`). -/
theorem inWritesTheAnswer : Obligations.InWritesTheAnswer := by
  intro s c
  refine ⟨fun byte rest hi => ?_, fun rest hi => ?_, fun hi ha => ?_, fun n hi ha => ?_⟩
  · rw [← inputWord_byte]
    exact ⟨_, exec_inp_of_some (State.ioIn_of_listed hi), State.writesOnly_writeReg _ c _⟩
  · exact ⟨_, exec_inp_of_some (State.ioIn_of_listed hi), State.writesOnly_writeReg _ c _⟩
  · exact ⟨_, exec_inp_of_some (State.ioIn_of_closed hi ha), s.writesOnly_writeReg c _⟩
  · refine ⟨_, _, exec_inp_of_some (State.ioIn_of_drawn hi ha), ?_, State.writesOnly_writeReg _ c _⟩
    rcases inputWord_cases (InputAnswer.ofDraw (Config.freeInputAnswer n)) with ⟨byte, -, hw⟩ | ⟨-, hw⟩
    · exact .inl ⟨byte, hw⟩
    · exact .inr hw

/-- Settles O45: a silent host answers no `IoIn()`, and a full one no `IoOut(b)`. -/
theorem unansweredIoHoldsTheStep : Obligations.UnansweredIoHoldsTheStep := by
  refine fun s c => ⟨fun hi ha => exec_inp_of_none (State.ioIn_of_silent hi ha), fun hv hroom => ?_⟩
  rcases s.ioOut_cases (lowByte (s.readReg c)) with ⟨_, ho⟩ | ⟨hopen, _⟩
  · exact exec_out_of_none hv ho
  · exact absurd hroom hopen

/-! ### The output stream (R63) -/

theorem Completes.output_of_out {c : Reg} {s t : State} (h : Completes s (.out c) t) :
    ∃ byte : Byte, byte.toNat = (s.readReg c).toNat ∧ t.output = s.output ++ [byte] := by
  cases h with
  | out hv _ => exact ⟨_, lowByte_toNat hv, rfl⟩

theorem Completes.output_eq {i : Instr} {s t : State} (h : Completes s i t) (hi : ∀ c, i ≠ .out c) :
    t.output = s.output ∧ t.outputRoom = s.outputRoom := by
  cases h with
  | out _ _ => exact absurd rfl (hi _)
  | _ => exact ⟨rfl, rfl⟩

/-- Settles O46, by the outcomes of a step: a fault leaves the stream alone, and of the completions only OUT's appends. -/
theorem outputIsTheSequenceOfOutBytes : Obligations.OutputIsTheSequenceOfOutBytes := by
  intro s t h
  have hrun := run_of_step h
  cases stepOutcome_of_step h with
  | fetchFault _ => exact ⟨fun _ _ _ _ hf => absurd rfl hf, fun _ _ _ _ _ => rfl, fun _ => rfl⟩
  | decodeFault _ _ _ => exact ⟨fun _ _ _ _ hf => absurd rfl hf, fun _ _ _ _ _ => rfl, fun _ => rfl⟩
  | faults _ _ _ => exact ⟨fun _ _ _ _ hf => absurd rfl hf, fun _ _ _ _ _ => rfl, fun _ => rfl⟩
  | completes hw hd hc =>
    refine ⟨fun w c hw' hd' _ => ?_, fun _ _ _ _ hf => absurd hf (hc.run_ne_faulted hrun), fun hout => ?_⟩
    · cases hw.symm.trans hw'; cases hd.symm.trans hd'
      exact hc.output_of_out
    · exact (hc.output_eq fun c hi => hout _ c hw (hi ▸ hd)).1

end Sys2Proof.Machine
end

section
/-! PROOFS. Faults (60_exceptions.md R171 to R173, 10_state.md R30) and the stops of the machine (40_sequencing.md R104;
R51, R163, R165). -/

namespace Sys2Proof.Machine

/-! ### Faults -/

/-- Settles O47: both ways to leave the machine `FAULTED` are a raise, before or after the advance. -/
theorem faultsArePrecise : Obligations.FaultsArePrecise := by
  intro s t h hf
  rcases raise_of_step_faulted h hf with ⟨hw, rfl⟩ | ⟨w, e, hw, hcause, rfl⟩
  · exact ⟨rfl, rfl, hw.symm, fun _ => rfl, fun hne => absurd rfl hne⟩
  · exact ⟨rfl, by simp, by simp, fun heq => absurd heq hcause, fun _ => rfl⟩

/-- Settles O48: a step that does not leave the machine `FAULTED` is a completion. -/
theorem recordWrittenOnlyOnFault : Obligations.RecordWrittenOnlyOnFault := by
  intro s t h hf
  cases stepOutcome_of_step h with
  | completes _ _ hc => exact hc.fault_eq.1
  | _ => exact absurd rfl hf

/-- Settles O49, by the outcomes of a step and the ways an instruction faults. -/
theorem causeNamesItsInstruction : Obligations.CauseNamesItsInstruction := by
  intro s t h hf
  have hrun := run_of_step h
  cases stepOutcome_of_step h with
  | fetchFault hw => exact Memory.fetch_eq_none.mp hw
  | decodeFault hw _ hop => exact ⟨_, hw, fields_op_toNat _ ▸ hop⟩
  | completes _ _ hc => exact absurd hf (hc.run_ne_faulted hrun)
  | faults hw hd he =>
    cases he with
    | divideByZero _ => exact ⟨_, _, _, _, hw, hd⟩
    | segreadUnmapped _ => exact ⟨_, _, _, _, hw, .inl hd⟩
    | segreadBeyond _ _ => exact ⟨_, _, _, _, hw, .inl hd⟩
    | segwriteUnmapped _ => exact ⟨_, _, _, _, hw, .inr (.inl hd)⟩
    | segwriteBeyond _ _ => exact ⟨_, _, _, _, hw, .inr hd⟩
    | loadprogUnmapped hb _ => exact ⟨_, 0, _, _, hw, .inr (.inr ⟨hd, hb⟩)⟩
    | allocExhausted hcan => exact ⟨hcan, _, _, _, hw, hd⟩
    | badDeallocate _ => exact ⟨_, _, hw, hd⟩
    | outputOutOfRange _ => exact ⟨_, _, hw, hd⟩

/-! ### Stops -/

/-- The ways an instruction has no next state (R51, R163, R165). -/
inductive Stops (s : State) : Instr → Fault → Prop where
  | inputHeld {c : Reg} : s.input = [] → s.inputAfter = .noAnswer → Stops s (.inp c) .inputHeld
  | outputHeld {c : Reg} : s.outputRoom = some 0 → Stops s (.out c) .outputHeld
  | allocStuck {b c : Reg} : s.allocCanFail = false → s.mem.hasFreeIdentifier = false → Stops s (.segalloc b c) .allocStuck

/-- Every instruction has a next state or stops in one of the ways listed: none is refused. -/
theorem exec_next_or_stops (i : Instr) (s : State) :
    (∃ t, exec i s = .next t) ∨ (∃ f, exec i s = .fault f ∧ Stops s i f) := by
  cases i with
  | segalloc b c =>
    rcases s.mem.segAlloc_spec s.allocCanFail (Config.freeAllocRefusal s.draws) (Config.freeIdentifier s.draws)
      (s.readReg c) with ⟨hf, hcan, ha⟩ | ⟨_, _, ha⟩ | ⟨_, _, ha⟩
    · exact .inr ⟨_, exec_segalloc_of_none ha, .allocStuck hcan hf⟩
    · exact .inl ⟨_, exec_segalloc_of_some ha⟩
    · exact .inl ⟨_, exec_segalloc_of_some ha⟩
  | out c =>
    by_cases hv : 255 < (s.readReg c).toNat
    · exact .inl ⟨_, exec_out_of_exceeds hv⟩
    · have hle := Nat.le_of_not_lt hv
      rcases s.ioOut_cases (lowByte (s.readReg c)) with ⟨hroom, ho⟩ | ⟨_, ho⟩
      · exact .inr ⟨_, exec_out_of_none hle ho, .outputHeld hroom⟩
      · exact .inl ⟨_, exec_out_of_some hle ho⟩
  | inp c =>
    rcases s.ioIn_cases with ⟨_, _, _, ho⟩ | ⟨_, _, ho⟩ | ⟨hi, ha, ho⟩ | ⟨_, _, _, ho⟩
    · exact .inl ⟨_, exec_inp_of_some ho⟩
    · exact .inl ⟨_, exec_inp_of_some ho⟩
    · exact .inr ⟨_, exec_inp_of_none ho, .inputHeld hi ha⟩
    · exact .inl ⟨_, exec_inp_of_some ho⟩
  | _ => exact .inl ⟨_, rfl⟩

/-- A step has a next state, or the machine has stopped, or the fetched instruction stops. -/
theorem step_next_or_stops (s : State) :
    (∃ t, step s = .next t) ∨ (step s = .fault .halted ∧ s.run = .halted) ∨
    (step s = .fault .faulted ∧ s.run = .faulted) ∨
    (∃ w i f, s.mem.fetch s.pc = some w ∧ decode w = .ok i ∧ step s = .fault f ∧ Stops s.advance i f) := by
  cases hrun : s.run with
  | halted => exact .inr (.inl ⟨step_of_halted hrun, rfl⟩)
  | faulted => exact .inr (.inr (.inl ⟨step_of_faulted hrun, rfl⟩))
  | running =>
    cases hw : s.mem.fetch s.pc with
    | none => exact .inl ⟨_, step_of_fetch_none hrun hw⟩
    | some w =>
      rcases decode_cases w with ⟨i, hd, -⟩ | ⟨hd, -⟩
      · rw [step_of_decode hrun hw hd]
        rcases exec_next_or_stops i s.advance with hx | ⟨f, hx, hf⟩
        · exact .inl hx
        · exact .inr (.inr (.inr ⟨w, i, f, rfl, hd, hx, hf⟩))
      · exact .inl ⟨_, step_of_illegal hrun hw hd⟩

/-- Settles O50, by `step_next_or_stops`; with a canonical memory the test for a free identifier is exact. -/
theorem stopsOnlyWhereSpecHasNoStep : Obligations.StopsOnlyWhereSpecHasNoStep := by
  intro s hm
  rcases step_next_or_stops s with ⟨t, hx⟩ | ⟨hx, hrun⟩ | ⟨hx, hrun⟩ | ⟨w, i, g, hw, hd, hx, hs⟩
  · rw [hx]
    exact ⟨nofun, nofun⟩
  · rw [hx]
    exact ⟨nofun, fun f hf => by cases hf; exact hrun⟩
  · rw [hx]
    exact ⟨nofun, fun f hf => by cases hf; exact hrun⟩
  · rw [hx]
    refine ⟨nofun, fun f hf => ?_⟩
    cases hf
    cases hs with
    | inputHeld hi ha => exact ⟨hi, ha, w, _, hw, hd⟩
    | outputHeld hroom => exact ⟨hroom, w, _, hw, hd⟩
    | allocStuck hcan hf =>
      have hnone : ¬ s.mem.SomeFree := by
        rw [Memory.someFree_iff hm]
        exact Bool.eq_false_iff.mp hf
      exact ⟨hcan, hnone, w, _, _, hw, hd⟩

end Sys2Proof.Machine
end

section
/-! PROOFS. Frames: what an instruction leaves alone (10_state.md R23, R24, R35; 20_memory.md R61, R65). -/

namespace Sys2Proof.Machine

theorem Completes.readReg_eq {i : Instr} {s t : State} (h : Completes s i t) {r : Reg} (hr : destination i ≠ some r) :
    t.readReg r = s.readReg r := by
  have other : ∀ {u : State} {a : Reg} (v : Word), destination i = some a →
      (u.writeReg a v).readReg r = u.readReg r :=
    fun v ha => State.readReg_writeReg_other _ v fun e => hr (e ▸ ha)
  cases h with
  | cmovMoves _ => exact other _ rfl
  | segread _ => exact other _ rfl
  | add => exact other _ rfl
  | mul => exact other _ rfl
  | div _ => exact other _ rfl
  | nand => exact other _ rfl
  | segalloc _ _ => exact other _ rfl
  | inpListed _ => exact other _ rfl
  | inpClosed _ _ => exact other _ rfl
  | inpDrawn _ _ => exact other _ rfl
  | loadimm => exact other _ rfl
  | _ => rfl

/-- Settles O51: a completion writes its destination only, and a raise no register. -/
theorem registerFrame : Obligations.RegisterFrame := by
  intro i s t h r
  rcases exec_cases h with hc | ⟨e, _, rfl⟩
  · exact ⟨hc.readReg_eq, fun hrun hf => absurd hf (hc.run_ne_faulted hrun)⟩
  · exact ⟨fun _ => rfl, fun _ _ => rfl⟩

/-! ### Memory -/

/-- `leastFree_spec` without its order: the bounds hold for a list of any form. -/
theorem leastFree_bounds (is : List Nat) (k : Nat) : k ≤ leastFree k is ∧ leastFree k is ≤ k + is.length := by
  induction is generalizing k with
  | nil => exact ⟨Nat.le_refl k, Nat.le_refl k⟩
  | cons i is ih =>
    rw [leastFree, List.length_cons]
    split
    · have := ih (k + 1)
      omega
    · omega

/-- An allocation never returns identifier 0, in a memory of any form. -/
theorem Memory.chooseIdentifier_ne_zero {m : Memory} (hf : m.hasFreeIdentifier = true) (drawn : Word) :
    m.chooseIdentifier drawn ≠ 0#32 := by
  unfold chooseIdentifier
  split
  · next h => exact h.1
  · have hlen : m.table.length < 2 ^ 32 - 1 := by simpa [hasFreeIdentifier] using hf
    have hkeys : (Assoc.keys m.table).length = m.table.length := List.length_map _
    obtain ⟨hlow, hhigh⟩ := leastFree_bounds (Assoc.keys m.table) 1
    have hlt : leastFree 1 (Assoc.keys m.table) < 2 ^ 32 := by omega
    intro h0
    have hnat : leastFree 1 (Assoc.keys m.table) = 0 := by
      rw [← Nat.mod_eq_of_lt hlt, ← BitVec.toNat_ofNat, h0]
      rfl
    omega

/-- Settles O52: three forms change which segment one identifier names, and SEGWRITE one word. -/
theorem memoryFrame : Obligations.MemoryFrame := by
  intro i s t h q off hq
  have of_segment : t.mem.segment q = s.mem.segment q →
      t.mem.word q off = s.mem.word q off ∧ t.mem.length q = s.mem.length q :=
    fun hs => ⟨Memory.word_eq_of_segment_eq hs off, Memory.length_eq_of_segment_eq hs⟩
  rcases exec_cases h with hc | ⟨e, _, rfl⟩
  · cases hc with
    | segwrite hw => exact ⟨(Memory.word_segWrite hw q off).trans (if_neg hq), Memory.length_segWrite hw q⟩
    | @segalloc b c id hf hid =>
      have h0 := hid ▸ Memory.chooseIdentifier_ne_zero hf (Config.freeIdentifier s.draws)
      have hne : q ≠ id := fun e => hq (e.trans (State.readReg_writeReg_same _ b id).symm)
      exact of_segment ((Memory.segment_allocate _ _ q h0).trans (if_neg hne))
    | segfree hw => exact of_segment ((Memory.segment_segFree hw q).trans (if_neg hq))
    | loadprogLoad hb hw =>
      exact of_segment ((Memory.segment_segLoad hb hw q).trans (if_neg fun h0 => hq ⟨h0, hb⟩))
    | _ => exact ⟨rfl, rfl⟩
  · exact ⟨rfl, rfl⟩

/-! ### The Free-ID Pool, the draws and the host's side -/

theorem Completes.allocCanFail_eq {i : Instr} {s t : State} (h : Completes s i t) : t.allocCanFail = s.allocCanFail := by
  cases h <;> rfl

theorem Completes.freeIds_eq {i : Instr} {s t : State} (h : Completes s i t)
    (halloc : ∀ b c, i ≠ .segalloc b c) (hfree : ∀ c, i ≠ .segfree c) :
    t.mem.freeIds = s.mem.freeIds := by
  cases h with
  | segwrite hw => exact Memory.freeIds_segWrite hw
  | segalloc _ _ => exact absurd rfl (halloc _ _)
  | segfree _ => exact absurd rfl (hfree _)
  | loadprogLoad _ hw => exact Memory.freeIds_segLoad hw
  | _ => rfl

theorem Completes.draws_eq {i : Instr} {s t : State} (h : Completes s i t)
    (halloc : ∀ b c, i ≠ .segalloc b c) : t.draws = s.draws := by
  cases h with
  | segalloc _ _ => exact absurd rfl (halloc _ _)
  | _ => rfl

theorem Completes.input_eq {i : Instr} {s t : State} (h : Completes s i t) (hinp : ∀ c, i ≠ .inp c) :
    t.input = s.input ∧ t.inputAfter = s.inputAfter := by
  cases h with
  | inpListed _ => exact absurd rfl (hinp _)
  | inpClosed _ _ => exact absurd rfl (hinp _)
  | inpDrawn _ _ => exact absurd rfl (hinp _)
  | _ => exact ⟨rfl, rfl⟩

/-- Settles O53: one frame lemma per part of the environment, and IN's use of an answer; a raise changes none of them, and
IN raises nothing. -/
theorem environmentFrame : Obligations.EnvironmentFrame := by
  intro i s t h
  rcases exec_cases h with hc | ⟨e, he, rfl⟩
  · refine ⟨hc.allocCanFail_eq, hc.freeIds_eq, hc.draws_eq, hc.output_eq, hc.input_eq, ?_⟩
    rintro c rfl
    cases hc with
    | inpListed hi => exact ⟨by rw [hi]; rfl, by rw [hi]; rfl⟩
    | inpClosed hi ha => exact ⟨by rw [hi]; exact hi, by rw [hi, ha]; exact ha⟩
    | inpDrawn hi ha => exact ⟨by rw [hi]; rfl, by rw [hi, ha]; rfl⟩
  · refine ⟨rfl, fun _ _ => rfl, fun _ => rfl, fun _ => ⟨rfl, rfl⟩, fun _ => ⟨rfl, rfl⟩, ?_⟩
    rintro c rfl
    cases he

end Sys2Proof.Machine
end

section
/-! PROOFS. Reset (10_state.md R36) and the booted machine (70_reset_and_hazards.md R200 to R202). -/

namespace Sys2Proof.Machine

/-- Settles O54, by the fields of the reset state; no table lists an identifier. -/
theorem resetState : Obligations.ResetState := by
  refine ⟨fun r => ?_, rfl, rfl, rfl, fun id => ?_, rfl, rfl⟩
  · simp [State.readReg, State.reset, Config.regReset]
  · exact Bool.and_false _

/-! ### Which images boot, and the machine they boot -/

theorem State.boot_of_words {image : List Byte} {ws : List Word} (hw : imageWords image = some ws)
    (hlt : ws.length < 2 ^ 32) :
    State.boot image = some (State.reset.setMem { Memory.reset with seg0 := Segment.ofWords ws }) := by
  simp only [boot, hw, if_pos hlt]

theorem exists_boot_iff (image : List Byte) :
    (∃ s, State.boot image = some s) ↔ image.length % 4 = 0 ∧ image.length / 4 < 2 ^ 32 := by
  constructor
  · rintro ⟨s, hs⟩
    obtain ⟨ws, hw, hlt, -⟩ := State.boot_some hs
    have hlen := (imageWords_spec image ws hw).1
    omega
  · rintro ⟨hmod, hlt⟩
    obtain ⟨ws, hw⟩ := Option.isSome_iff_exists.mp ((imageWords_isSome image).mpr hmod)
    have hlen := (imageWords_spec image ws hw).1
    exact ⟨_, State.boot_of_words hw (by omega)⟩

theorem inv_of_words {ws : List Word} (hlt : ws.length < 2 ^ 32) :
    (State.reset.setMem { Memory.reset with seg0 := Segment.ofWords ws }).Inv :=
  ⟨⟨Segment.wf_ofWords hlt, Memory.wf_reset.2⟩, FaultRecord.agrees_of_none rfl nofun⟩

/-- Settles O56: the booted machine is the reset state with the image's words as segment zero, one word per four bytes. -/
theorem bootedMachine : Obligations.BootedMachine := by
  refine fun image => ⟨exists_boot_iff image, fun s hs => ?_⟩
  obtain ⟨ws, hw, hlt, rfl⟩ := State.boot_some hs
  have hlen := (imageWords_spec image ws hw).1
  refine ⟨inv_of_words hlt, rfl, rfl, fun off => ?_, fun hempty => ?_⟩
  · rw [Memory.fetch_isSome, ← hlen]
    exact (Nat.mul_lt_mul_left (by decide)).symm
  · have hnone : (Segment.ofWords ws).len ≤ (0#32).toNat := by
      rw [hempty, List.length_nil] at hlen
      show ws.length ≤ 0
      omega
    exact ⟨_, step_of_fetch_none rfl (Memory.fetch_eq_none.mpr hnone), State.takesFault_raiseFetchFault _⟩

end Sys2Proof.Machine
end

section
/-! PROOFS. The idioms of the assembler (30_encoding.md R93): the state each leaves, then what its registers read. -/

namespace Sys2Proof.Machine

/-! ### Running a list of instructions -/

theorem execList_cons_of_next {i : Instr} {is : List Instr} {s t : State} (h : exec i s.advance = .next t) :
    execList (i :: is) s = execList is t := by
  rw [execList, h]

theorem execList_singleton {i : Instr} {s t : State} (h : exec i s.advance = .next t) : execList [i] s = .next t := by
  rw [execList_cons_of_next h, execList]

theorem execList_append_of_next {is js : List Instr} {s t : State} (h : execList is s = .next t) :
    execList (is ++ js) s = execList js t := by
  induction is generalizing s with
  | nil => cases h; rfl
  | cons i is ih =>
    rw [execList] at h
    cases hx : exec i s.advance with
    | next u =>
      rw [hx] at h
      rw [List.cons_append, execList_cons_of_next hx, ih h]
    | fault f => rw [hx] at h; cases h
    | refused r => rw [hx] at h; cases h

theorem State.writeReg_readReg_self (s : State) (r : Reg) : s.writeReg r (s.readReg r) = s := by
  simp [writeReg, readReg]

/-! ### The state each idiom leaves -/

theorem execList_idiomNop (s : State) (x y : Reg) : execList (idiomNop x y) s = .next s.advance := by
  apply execList_singleton
  by_cases hy : s.advance.readReg y = 0#32
  · exact exec_cmov_of_zero hy
  · rw [exec_cmov_of_ne_zero hy, State.writeReg_readReg_self]

theorem execList_idiomNot (s : State) (a b : Reg) :
    execList (idiomNot a b) s = .next (s.advance.writeReg a (~~~(s.readReg b))) := by
  rw [idiomNot, execList_singleton exec_nand, aluNand, BitVec.and_self, State.advance_readReg]

theorem execList_idiomAnd (s : State) (a b c : Reg) : execList (idiomAnd a b c) s =
    .next ((s.advance.writeReg a (aluNand (s.readReg b) (s.readReg c))).advance.writeReg a
      (s.readReg b &&& s.readReg c)) := by
  rw [idiomAnd, execList_cons_of_next exec_nand, execList_singleton exec_nand]
  simp [aluNand]

theorem execList_idiomMov (s : State) {p b : Reg} (a : Reg) (hp : p ≠ b) : execList (idiomMov p a b) s =
    .next ((s.advance.writeReg p 1#32).advance.writeReg a (s.readReg b)) := by
  rw [idiomMov, execList_cons_of_next (exec_loadimm _ p (by decide)),
    execList_singleton (exec_cmov_of_ne_zero (by simp)), State.advance_readReg,
    State.readReg_writeReg_other _ _ hp.symm, State.advance_readReg]

theorem execList_idiomNeg (s : State) {p a : Reg} (b : Reg) (hp : p ≠ a) : execList (idiomNeg p a b) s =
    .next (((s.advance.writeReg a (~~~(s.readReg b))).advance.writeReg p 1#32).advance.writeReg a (-(s.readReg b))) := by
  rw [idiomNeg, execList_cons_of_next exec_nand, execList_cons_of_next (exec_loadimm _ p (by decide)),
    execList_singleton exec_add]
  simp [aluNand, aluAdd, State.readReg_writeReg_other _ _ hp.symm, BitVec.neg_eq_not_add]

theorem execList_idiomSub (s : State) {p q b : Reg} (a c : Reg) (hqp : q ≠ p) (hpb : p ≠ b) (hqb : q ≠ b) :
    execList (idiomSub p q a b c) s =
      .next ((((s.advance.writeReg p (~~~(s.readReg c))).advance.writeReg q 1#32).advance.writeReg p
        (-(s.readReg c))).advance.writeReg a (s.readReg b - s.readReg c)) := by
  rw [idiomSub, execList_append_of_next (execList_idiomNeg s c hqp), execList_singleton exec_add]
  simp [aluAdd, State.readReg_writeReg_other _ _ hpb.symm, State.readReg_writeReg_other _ _ hqb.symm,
    BitVec.sub_eq_add_neg]

theorem execList_idiomJmp (s : State) {p c : Reg} (hp : p ≠ c) : execList (idiomJmp p c) s =
    .next ((s.advance.writeReg p 0#32).advance.setPc (s.readReg c)) := by
  rw [idiomJmp, execList_cons_of_next (exec_loadimm _ p (by decide)),
    execList_singleton (exec_loadprog_of_zero (by simp)), State.advance_readReg,
    State.readReg_writeReg_other _ _ hp.symm, State.advance_readReg]

/-- Settles O59, from the state each idiom leaves: register writes after advances, and for JMP a write of `pc`. -/
theorem idiomsCompute : Obligations.IdiomsCompute := by
  intro s a b c p q
  refine ⟨⟨_, execList_idiomNop s a b, rfl⟩, ⟨_, execList_idiomNot s a b, ?_⟩, ⟨_, execList_idiomAnd s a b c, ?_⟩,
    fun hpb => ⟨_, execList_idiomMov s a hpb, ?_, ?_, rfl⟩, fun hpa => ⟨_, execList_idiomNeg s b hpa, ?_, ?_, rfl⟩,
    fun hqp hpb hqb => ⟨_, execList_idiomSub s a c hqp hpb hqb, ?_, ?_, rfl⟩,
    fun hpc => ⟨_, execList_idiomJmp s hpc, rfl, ?_, rfl⟩⟩
  · exact State.writesOnly_writeReg _ a _
  · refine ⟨State.readReg_writeReg_same _ a _, fun r hr => ?_, rfl⟩
    exact (State.readReg_writeReg_other _ _ hr).trans (State.readReg_writeReg_other _ _ hr)
  · exact State.readReg_writeReg_same _ a _
  · intro r ha hp
    simp [State.readReg_writeReg, ha, hp]
  · rw [State.readReg_writeReg_same, BitVec.toNat_neg]
  · intro r ha hp
    simp [State.readReg_writeReg, ha, hp]
  · exact State.readReg_writeReg_same _ a _
  · intro r ha hp hq
    simp [State.readReg_writeReg, ha, hp, hq]
  · intro r hp
    simp [State.readReg_writeReg, hp]

end Sys2Proof.Machine
end
